-- ==== Sys2Proof/Word.lean ====
section
/-! DEFINITION. Words and their plainest arithmetic. 00_scope.md R13 and R15: every value of the block is an unsigned number, all
arithmetic is over unbounded natural numbers unless a width is given, and the width of a storage word is the parameter WB (R7).
So a word, a field, a register and an address is a natural number; `State.Inv` says which power of two it is below. -/

namespace Sys2Proof

/-- ceil_div(a, b) (00_scope.md R15). -/
def ceilDiv (a b : Nat) : Nat := (a + b - 1) / b

/-- mask(n): n ones (00_scope.md R15). -/
def mask (n : Nat) : Nat := 2 ^ n - 1

/-- ~_WB(a), for a < 2^WB (00_scope.md R15). -/
def complement (wb a : Nat) : Nat := mask wb - a

/-- trunc_N(v) (00_scope.md R15). -/
def trunc (n v : Nat) : Nat := v % 2 ^ n

end Sys2Proof
end

