-- ==== Sys2Proof/Config.lean ====
section
/-! DEFINITION. What an implementation fixes (00_scope.md R7 to R11) and the free values of the model. -/

namespace Sys2Proof

/-- The implementation parameters the model takes as arguments (00_scope.md R7 to R11). -/
structure Params where
  /-- WB, the width of one storage word (R7). -/
  wb : Nat
  /-- IDX_BITS, the width of the index field and of CAP (R8). -/
  idxBits : Nat
  /-- OWNED_WORDS, the number of words of ORAM (R9). -/
  ownedWords : Nat
  /-- XADDR_BITS, the width of an external word address (R10). -/
  xaddrBits : Nat
  /-- PW, the pattern width of the popcount ROM (R11). -/
  pw : Nat
  deriving DecidableEq, Repr

/-- The constraints of 00_scope.md R7 to R11: WB is a power of two from 8 to 128, IDX_BITS >= 2, OWNED_WORDS >= 1,
1 <= XADDR_BITS <= WB, 1 <= PW <= min(WB, IDX_BITS). -/
abbrev Params.Valid (p : Params) : Prop :=
  2 ^ Nat.log2 p.wb = p.wb ∧ 8 ≤ p.wb ∧ p.wb ≤ 128 ∧
  2 ≤ p.idxBits ∧
  1 ≤ p.ownedWords ∧
  1 ≤ p.xaddrBits ∧ p.xaddrBits ≤ p.wb ∧
  1 ≤ p.pw ∧ p.pw ≤ p.wb ∧ p.pw ≤ p.idxBits

namespace Config

/-- The default instance (00_scope.md R7, R8, R10, R11). OWNED_WORDS is OPEN in the spec (R9): DESIGN CHOICE 1024, the value
of 95_test_vectors.md (log entry 1). Unsafe only for a claim about this one instance; every operation takes the parameters
from the state. -/
def block : Params := { wb := 64, idxBits := 32, ownedWords := 1024, xaddrBits := 32, pw := 8 }

/-- FREE VALUE (10_state.md R30, 93 I-3): what ORAM word `k` holds while the spec states no value for it, for the `draw`-th
time that contents became unspecified. Used modulo 2^WB. Log entry 4. Safe: no proof can see its values. -/
opaque unspecifiedWord (draw k : Nat) : Nat

/-- FREE VALUE (70_reset_and_hazards.md R193, 93 I-8): which of its possible values the external word at address `a` holds
after a reset during a command. Used modulo the number of possible values. Log entry 8. Safe. -/
opaque resetChoice (draw a : Nat) : Nat

end Config

end Sys2Proof
end

