-- ==== Sys2Proof/Syntax.lean ====
section
/-! DEFINITION. The commands (30_encoding.md R73, R84): one constructor per row of spec/opcode_table.json. A command carries
the operands the assembler syntax of R84 gives it; a field that R73 marks as ignored is no operand (R74). -/

namespace Sys2Proof

/-- The commands of SDS-BPX. Operands are unsigned numbers, taken as they stand (30_encoding.md R72). -/
inductive Instr where
  /-- op 0x1: construct an owned structure (41_packed_array.md R109). -/
  | cfgo (fw cap : Nat)
  /-- op 0x2: construct over borrowed storage (41_packed_array.md R110). -/
  | cfgb (fw cap base : Nat)
  /-- op 0x3: read a field (41_packed_array.md R111). -/
  | get (idx : Nat)
  /-- op 0x4: write a field (41_packed_array.md R112). -/
  | write (idx value : Nat)
  /-- op 0x5: destroy the structure (41_packed_array.md R113). -/
  | release
  /-- op 0x6: popcount ROM lookup (42_popcount_table.md R149). -/
  | rank (pattern : Nat)
  /-- op 0x7: SWAR population count (42_popcount_table.md R148). -/
  | popcnt (value : Nat)
  /-- op 0x8: fill a popcount table in borrowed storage (42_popcount_table.md R151). -/
  | pctfill (w base : Nat)
  /-- op 0x0: reserved (30_encoding.md R81), as are the seven below. -/
  | reserved0
  | reserved9
  | reservedA
  | reservedB
  | reservedC
  | reservedD
  | reservedE
  | reservedF
  deriving DecidableEq, Repr

end Sys2Proof
end

