-- ==== Sys2Proof/WellFormed.lean ====
section
/-! DEFINITION. Which commands fit a command word: "An operand that does not fit its field (fw > 255, idx >= 2^IDX_BITS,
value or base >= 2^WB) is an assembly error, not a truncation" (30_encoding.md R84). -/

namespace Sys2Proof

/-- `v` fits the 8-bit field fw (30_encoding.md R70). -/
def fitsFw (v : Nat) : Bool := v < 2 ^ 8

/-- `v` fits the IDX_BITS-bit field idx. -/
def fitsIdx (p : Params) (v : Nat) : Bool := v < 2 ^ p.idxBits

/-- `v` fits the WB-bit field val. -/
def fitsVal (p : Params) (v : Nat) : Bool := v < 2 ^ p.wb

/-- Every operand of the command fits its field (30_encoding.md R84). -/
def Instr.wellFormed (p : Params) : Instr → Bool
  | .cfgo fw cap => fitsFw fw && fitsIdx p cap
  | .cfgb fw cap base => fitsFw fw && fitsIdx p cap && fitsVal p base
  | .get idx => fitsIdx p idx
  | .write idx value => fitsIdx p idx && fitsVal p value
  | .release => true
  | .rank pattern => fitsIdx p pattern
  | .popcnt value => fitsVal p value
  | .pctfill w base => fitsFw w && fitsVal p base
  | .reserved0 => true
  | .reserved9 => true
  | .reservedA => true
  | .reservedB => true
  | .reservedC => true
  | .reservedD => true
  | .reservedE => true
  | .reservedF => true

end Sys2Proof
end

