-- ==== Sys2Proof/Decode.lean ====
section
/-! DEFINITION. The command word (30_encoding.md R70 to R75): its four fields, the total decoder, the encoder, and the
decoder on a word numbered as spec/opcode_table.json numbers it. -/

namespace Sys2Proof

/-- CWW = 12 + IDX_BITS + WB, the width of a command word (00_scope.md R12, 30_encoding.md R70). -/
def cww (p : Params) : Nat := 12 + p.idxBits + p.wb

/-- The unsigned value of the `width` bits of `v` from bit `lo` up (00_scope.md R13). -/
def bitField (v lo width : Nat) : Nat := (v >>> lo) % 2 ^ width

/-- op = cw[CWW-1 : CWW-4] (30_encoding.md R70). -/
def opField (p : Params) (cw : Nat) : Nat := bitField cw (p.wb + p.idxBits + 8) 4

/-- fw = cw[CWW-5 : CWW-12]. -/
def fwField (p : Params) (cw : Nat) : Nat := bitField cw (p.wb + p.idxBits) 8

/-- idx = cw[WB+IDX_BITS-1 : WB]. -/
def idxField (p : Params) (cw : Nat) : Nat := bitField cw p.wb p.idxBits

/-- val = cw[WB-1 : 0]. -/
def valField (p : Params) (cw : Nat) : Nat := bitField cw 0 p.wb

/-- The command a command word stands for: only the op field selects it (30_encoding.md R73, R75), and an ignored field is
not read (R74). Total: an op value without a command is one of the eight reserved commands (R81). -/
def decode (p : Params) (cw : Nat) : Instr :=
  match opField p cw with
  | 0x1 => .cfgo (fwField p cw) (idxField p cw)
  | 0x2 => .cfgb (fwField p cw) (idxField p cw) (valField p cw)
  | 0x3 => .get (idxField p cw)
  | 0x4 => .write (idxField p cw) (valField p cw)
  | 0x5 => .release
  | 0x6 => .rank (idxField p cw)
  | 0x7 => .popcnt (valField p cw)
  | 0x8 => .pctfill (fwField p cw) (valField p cw)
  | 0x9 => .reserved9
  | 0xA => .reservedA
  | 0xB => .reservedB
  | 0xC => .reservedC
  | 0xD => .reservedD
  | 0xE => .reservedE
  | 0xF => .reservedF
  | _ => .reserved0    -- op 0x0, the one value of a 4-bit field that is left

/-- cw = op ++ fw ++ idx ++ val (30_encoding.md R70). -/
def assemble (p : Params) (op fw idx val : Nat) : Nat :=
  ((op * 2 ^ 8 + fw) * 2 ^ p.idxBits + idx) * 2 ^ p.wb + val

/-- The op value of a command (30_encoding.md R73). -/
def Instr.opValue : Instr → Nat
  | .cfgo _ _ => 0x1
  | .cfgb _ _ _ => 0x2
  | .get _ => 0x3
  | .write _ _ => 0x4
  | .release => 0x5
  | .rank _ => 0x6
  | .popcnt _ => 0x7
  | .pctfill _ _ => 0x8
  | .reserved0 => 0x0
  | .reserved9 => 0x9
  | .reservedA => 0xA
  | .reservedB => 0xB
  | .reservedC => 0xC
  | .reservedD => 0xD
  | .reservedE => 0xE
  | .reservedF => 0xF

/-- The command word the assembler writes: 0 in every ignored field (30_encoding.md R84). -/
def encode (p : Params) (i : Instr) : Nat :=
  match i with
  | .cfgo fw cap => assemble p i.opValue fw cap 0
  | .cfgb fw cap base => assemble p i.opValue fw cap base
  | .get idx => assemble p i.opValue 0 idx 0
  | .write idx value => assemble p i.opValue 0 idx value
  | .release => assemble p i.opValue 0 0 0
  | .rank pattern => assemble p i.opValue 0 pattern 0
  | .popcnt value => assemble p i.opValue 0 0 value
  | .pctfill w base => assemble p i.opValue w 0 base
  | .reserved0 => assemble p i.opValue 0 0 0
  | .reserved9 => assemble p i.opValue 0 0 0
  | .reservedA => assemble p i.opValue 0 0 0
  | .reservedB => assemble p i.opValue 0 0 0
  | .reservedC => assemble p i.opValue 0 0 0
  | .reservedD => assemble p i.opValue 0 0 0
  | .reservedE => assemble p i.opValue 0 0 0
  | .reservedF => assemble p i.opValue 0 0 0

/-- A word numbered as spec/opcode_table.json numbers it, as a command word. The table's match and mask apply to the 4-bit op
field cw[CWW-1:CWW-4] and it gives a row no other bits, so bits 3..0 of a shorter word are the op field and every other bit of
the command word is 0. A word of at least CWW bits is the command word itself (log entry 2). -/
def tableWord (p : Params) (nbits w : Nat) : Nat :=
  if cww p ≤ nbits then bitField w 0 (cww p) else assemble p (bitField w 0 4) 0 0 0

/-- The command the decoder reads, at the default parameters, from a word numbered as spec/opcode_table.json numbers it. Every
command word decodes (30_encoding.md R75), so the answer is never `none`. -/
def decodeTableWord (nbits w : Nat) : Option Instr :=
  some (decode Config.block (tableWord Config.block nbits w))

end Sys2Proof
end

