-- ==== Sys2Proof/Machine/State.lean ====
section
/-! DEFINITION. The state of the block as plain data (10_state.md), the reasons a step can stop, and the state after reset. -/

namespace Sys2Proof.Machine

/-- A word memory: (word address, word) cells, addresses strictly rising (`Memory.wf`). What a word that is not listed holds
is said where the memory is read: `xmemWord`, `oramWord` and `prom`. -/
abbrev Memory := List (Nat × Nat)

/-- MODE (10_state.md R24): 0 = OWNED, 1 = BORROWED. -/
inductive Mode where
  | owned
  | borrowed
  deriving DecidableEq, Repr

/-- The command processor phase (10_state.md R34): IDLE, or BUSY with an accepted command word whose response the host has not
yet taken. The word is the in-flight state of R36: a command takes effect as one atomic step (70_reset_and_hazards.md R196). -/
inductive Phase where
  | idle
  | busy (cw : Nat)
  deriving DecidableEq, Repr

/-- The response statuses of 60_exceptions.md R170. Code 7 is reserved and never produced, so it has no constructor. -/
inductive Status where
  | ok
  | illegal
  | noCfg
  | width
  | space
  | base
  | range
  deriving DecidableEq, Repr

/-- A response: status and a WB-bit data word (30_encoding.md R76). -/
structure Response where
  status : Status
  data : Nat
  deriving DecidableEq, Repr

/-- A move of the host (30_encoding.md R77, 20_memory.md R64, 70_reset_and_hazards.md R190). -/
inductive HostEvent where
  /-- The host presents a command word, and the command runs until its response is taken, with no reset between. -/
  | command (cw : Nat)
  /-- The host presents a command word, the block accepts it, and the response is not yet taken at the host's next move. -/
  | accept (cw : Nat)
  /-- The host writes one external word between commands (20_memory.md R64). -/
  | write (addr : Nat) (v : Nat)
  /-- The host asserts `rst` and releases it. -/
  | reset
  deriving DecidableEq, Repr

/-- Why the model stops. The spec has no trap (60_exceptions.md R174), and no step from a legal state (`State.Inv`) faults. -/
inductive Fault where
  /-- Raised by GET and WRITE: an owned word index that ORAM does not have. Only in a state that breaks 10_state.md R28. Safe. -/
  | oramAddress
  /-- Raised by GET and WRITE in a state that breaks R28, and by a host write event: an address XMEM does not have. Safe. -/
  | xmemAddress
  deriving DecidableEq, Repr

/-- Why the model gives no meaning. -/
inductive Refusal where
  /-- Raised by `exec` for a command without a meaning. No arm of this model raises it. Safe. -/
  | notModelled (mnemonic : String)
  deriving DecidableEq, Repr

/-- Everything the spec gives the block, and the host's side of its ports. -/
structure State where
  /-- The implementation parameters (00_scope.md R7 to R11), the same in every state of one block. Log entry 1. -/
  params : Params
  /-- CFG_VALID (10_state.md R23). -/
  cfgValid : Bool
  /-- MODE (10_state.md R24). -/
  mode : Mode
  /-- FW, 8 bits (10_state.md R25). -/
  fw : Nat
  /-- CAP, IDX_BITS bits (10_state.md R26). -/
  cap : Nat
  /-- BASE, XADDR_BITS bits (10_state.md R27). -/
  base : Nat
  /-- ORAM (10_state.md R30): the words whose contents the spec states. Any other word holds a free value (log entry 4). -/
  oram : Memory
  /-- XMEM (10_state.md R32): the words that are not 0 (log entry 5). -/
  xmem : Memory
  /-- The command processor phase (10_state.md R34). -/
  phase : Phase
  /-- The host's moves not yet taken up, oldest first (30_encoding.md R77). -/
  input : List HostEvent
  /-- The responses the host has taken, newest first (30_encoding.md R78). -/
  rsps : List Response
  /-- The model's own: how often a free value has been drawn (log entry 4). -/
  draws : Nat
  deriving DecidableEq, Repr

/-- The block right after power-up reset (70_reset_and_hazards.md R191): every register 0, IDLE, no response pending, ORAM
unspecified. Log entries 1, 4, 5 and 7 name what the spec leaves to the model here. -/
def State.reset : State where
  params := Config.block
  cfgValid := false
  mode := .owned
  fw := 0
  cap := 0
  base := 0
  oram := []
  xmem := []
  phase := .idle
  input := []
  rsps := []
  draws := 0

end Sys2Proof.Machine
end

