-- ==== Sys2Proof/Machine/Operands.lean ====
section
/-! DEFINITION. The population count of 00_scope.md R15, the derived constants of R12, and the shared functions that
locate, extract and insert a field (41_packed_array.md R101, R103, R104). -/

namespace Sys2Proof.Machine

/-- The number of 1 bits among bits n-1 to 0 of v. -/
def popcountBelow : Nat → Nat → Nat
  | 0, _ => 0
  | n + 1, v => popcountBelow n v + (v.testBit n).toNat

/-- popcount(v): the number of 1 bits of v (00_scope.md R15); no bit of v stands above its binary logarithm. -/
def popcount (v : Nat) : Nat := popcountBelow (Nat.log2 v + 1) v

/-- NW: the storage word count of a structure of width `fw` and capacity `cap` (10_state.md R29). -/
def wordCount (wb fw cap : Nat) : Nat := ceilDiv (fw * cap) wb

/-- PROM_WORDS (00_scope.md R12). -/
def promWords (p : Params) : Nat := wordCount p.wb p.pw (2 ^ p.pw)

/-- PCT_WMAX: the largest pattern width PCTFILL accepts (00_scope.md R12). -/
def pctWMax (p : Params) : Nat := min p.wb (p.idxBits - 1)

/-- k0: the word that holds the first bit of span `i` (41_packed_array.md R101). -/
def spanWord (wb fw i : Nat) : Nat := i * fw / wb

/-- o: the distance of the span's first bit from the most significant bit of word k0 (41_packed_array.md R101). -/
def spanOffset (wb fw i : Nat) : Nat := i * fw % wb

/-- one: the span lies in word k0 alone (41_packed_array.md R101). -/
def spanInOneWord (wb fw i : Nat) : Bool := spanOffset wb fw i + fw ≤ wb

/-- sh: the right shift that brings a one-word field to bit 0 (41_packed_array.md R101). -/
def spanShift (wb fw i : Nat) : Nat := wb - spanOffset wb fw i - fw

/-- h: the bits of a two-word field in word k0 (41_packed_array.md R101). -/
def spanHigh (wb fw i : Nat) : Nat := wb - spanOffset wb fw i

/-- l: the bits of a two-word field in word k0+1 (41_packed_array.md R101). -/
def spanLow (wb fw i : Nat) : Nat := fw - spanHigh wb fw i

/-- The words span `i` touches, in the order they are accessed (41_packed_array.md R101, R103, R104). -/
def spanWords (wb fw i : Nat) : List Nat :=
  if spanInOneWord wb fw i then [spanWord wb fw i] else [spanWord wb fw i, spanWord wb fw i + 1]

/-- extract(i) over the storage words `rd` (41_packed_array.md R103). -/
def extractField (wb fw i : Nat) (rd : Nat → Nat) : Nat :=
  let k0 := spanWord wb fw i
  if spanInOneWord wb fw i then
    (rd k0 >>> spanShift wb fw i) &&& mask fw
  else
    let h := spanHigh wb fw i
    let l := spanLow wb fw i
    ((rd k0 &&& mask h) <<< l) ||| (rd (k0 + 1) >>> (wb - l))

/-- The word writes of insert(i, v) over the storage words `rd`, in their order (41_packed_array.md R104): word `k0` before
word `k0 + 1`. The two words differ, so reading both before writing either is the rule's read-modify-write. -/
def fieldWrites (wb fw i v : Nat) (rd : Nat → Nat) : List (Nat × Nat) :=
  let k0 := spanWord wb fw i
  if spanInOneWord wb fw i then
    let sh := spanShift wb fw i
    let m := mask fw <<< sh
    [(k0, (rd k0 &&& complement wb m) ||| (v <<< sh))]
  else
    let h := spanHigh wb fw i
    let l := spanLow wb fw i
    let m2 := mask l <<< (wb - l)
    [(k0, (rd k0 &&& complement wb (mask h)) ||| (v >>> l)),
     (k0 + 1, (rd (k0 + 1) &&& complement wb m2) ||| ((v &&& mask l) <<< (wb - l)))]

end Sys2Proof.Machine
end

