-- ==== Sys2Proof/Machine/Flags.lean ====
section
/-! DEFINITION. The block has no flag register: the status of a response is what a command writes instead (10_state.md R33).
Here are the status codes (60_exceptions.md R170), the response word (30_encoding.md R76) and, once, the checks that give each
command its status, in the priority order of 60_exceptions.md R171 and R172. -/

namespace Sys2Proof.Machine

/-- The 3-bit status code (60_exceptions.md R170). -/
def Status.code : Status → Nat
  | .ok => 0
  | .illegal => 1
  | .noCfg => 2
  | .width => 3
  | .space => 4
  | .base => 5
  | .range => 6

/-- The status of a code; 7 is reserved and refused (60_exceptions.md R170, 93 I-15). -/
def Status.ofCode : Nat → Option Status
  | 0 => some .ok
  | 1 => some .illegal
  | 2 => some .noCfg
  | 3 => some .width
  | 4 => some .space
  | 5 => some .base
  | 6 => some .range
  | _ => none

/-- rsp = status ++ data (30_encoding.md R76). -/
def Response.word (wb : Nat) (r : Response) : Nat := r.status.code * 2 ^ wb + r.data

/-- The response a WB + 3-bit response word stands for (30_encoding.md R76). -/
def Response.ofWord (wb n : Nat) : Option Response :=
  (Status.ofCode (bitField n wb 3)).map (fun st => { status := st, data := bitField n 0 wb })

/-- valid_width(w) (41_packed_array.md R105). -/
def validWidth (wb w : Nat) : Bool := 1 ≤ w && w ≤ wb

/-- A borrowed buffer of `n` words at base `b` lies in the external address space (41_packed_array.md R107). -/
def baseFits (p : Params) (b n : Nat) : Bool := b < 2 ^ p.xaddrBits && b + n ≤ 2 ^ p.xaddrBits

/-- The status of CFGO (41_packed_array.md R109). -/
def cfgoStatus (p : Params) (w c : Nat) : Status :=
  if !validWidth p.wb w then .width
  else if p.ownedWords < wordCount p.wb w c then .space
  else .ok

/-- The status of CFGB (41_packed_array.md R110). -/
def cfgbStatus (p : Params) (w c b : Nat) : Status :=
  if !validWidth p.wb w then .width
  else if !baseFits p b (wordCount p.wb w c) then .base
  else .ok

/-- The status of GET and of WRITE (41_packed_array.md R111, R112). -/
def accessStatus (s : State) (i : Nat) : Status :=
  if !s.cfgValid then .noCfg
  else if s.cap ≤ i then .range
  else .ok

/-- The status of RANK (42_popcount_table.md R149). -/
def rankStatus (p : Params) (pattern : Nat) : Status :=
  if 2 ^ p.pw ≤ pattern then .range else .ok

/-- The status of PCTFILL (42_popcount_table.md R151). -/
def pctfillStatus (p : Params) (w b : Nat) : Status :=
  if w < 1 || pctWMax p < w then .width
  else if !baseFits p b (wordCount p.wb w (2 ^ w)) then .base
  else .ok

end Sys2Proof.Machine
end

