-- ==== Sys2Proof/Machine/Ops.lean ====
section
/-! DEFINITION. The named operations over memories and registers. The block takes no exception and has no return from one
(60_exceptions.md R174, R175): a failing command responds a status and has no effect, which is `failWith`, said once here. -/

namespace Sys2Proof.Machine

/-! ### Word memories -/

/-- The word listed at an address. -/
def Memory.lookup : Memory → Nat → Option Nat
  | [], _ => none
  | (b, w) :: m, a => if a = b then some w else Memory.lookup m a

/-- List `v` at `a`, in place of what was listed there. -/
def Memory.put : Memory → Nat → Nat → Memory
  | [], a, v => [(a, v)]
  | (b, w) :: m, a, v =>
    if a < b then (a, v) :: (b, w) :: m
    else if a = b then (a, v) :: m
    else (b, w) :: Memory.put m a v

/-- List nothing at `a`. -/
def Memory.erase (m : Memory) (a : Nat) : Memory := m.filter (fun c => c.1 != a)

/-- Write `v` at `a` in a memory whose unlisted words read as `unlisted` (`none`: they have no stated value). Writing the value
an unlisted word reads as removes the entry. -/
def Memory.write (unlisted : Option Nat) (m : Memory) (a : Nat) (v : Nat) : Memory :=
  if unlisted = some v then Memory.erase m a else Memory.put m a v

/-- The canonical form: addresses strictly rising and below `size`, words below 2^`wb`, and no entry equal to what an unlisted
word reads as. -/
abbrev Memory.wf (unlisted : Option Nat) (size wb : Nat) (m : Memory) : Prop :=
  m.Pairwise (fun c d => c.1 < d.1) ∧ ∀ c ∈ m, c.1 < size ∧ c.2 < 2 ^ wb ∧ some c.2 ≠ unlisted

/-- What an unlisted word of a zero-based memory (XMEM, PROM) reads as. DESIGN CHOICE for XMEM at power-up (10_state.md R32
leaves the contents to the host), log entry 5: unsafe for a claim about the reset state alone. -/
def zeroWord : Option Nat := some 0

/-- Read a memory whose unlisted words are 0. -/
def Memory.word (m : Memory) (a : Nat) : Nat := (Memory.lookup m a).getD 0

/-- Write a memory whose unlisted words are 0. -/
def Memory.setWord (m : Memory) (a : Nat) (v : Nat) : Memory := Memory.write zeroWord m a v

/-- `n` listed words of 0 from word 0 up (41_packed_array.md R108). -/
def Memory.zeros (n : Nat) : Memory := (List.range n).map (fun k => (k, 0))

/-! ### The storage buffer of the live structure -/

/-- MemRead(a, 1) (00_scope.md R16). -/
def xmemWord (s : State) (a : Nat) : Nat := Memory.word s.xmem a

/-- ORAM[k] (00_scope.md R16). A word the spec states no value for holds a free value (10_state.md R30, log entry 4). -/
def oramWord (s : State) (k : Nat) : Nat :=
  (Memory.lookup s.oram k).getD (trunc s.params.wb (Config.unspecifiedWord s.draws k))

/-- S(k) (41_packed_array.md R100). -/
def storageWord (s : State) (k : Nat) : Nat :=
  match s.mode with
  | .owned => oramWord s k
  | .borrowed => xmemWord s (s.base + k)

/-- MemWrite(a, 1, v) (00_scope.md R16). -/
def State.setXmemWord (s : State) (a : Nat) (v : Nat) : State := { s with xmem := Memory.setWord s.xmem a v }

/-- ORAM[k] <- v (00_scope.md R16). -/
def State.setOramWord (s : State) (k : Nat) (v : Nat) : State := { s with oram := Memory.write none s.oram k v }

/-- S(k) <- v (41_packed_array.md R100). -/
def State.setStorageWord (s : State) (k : Nat) (v : Nat) : State :=
  match s.mode with
  | .owned => s.setOramWord k v
  | .borrowed => s.setXmemWord (s.base + k) v

/-- Word writes in their order. -/
def State.setStorageWords (s : State) (ws : List (Nat × Nat)) : State :=
  ws.foldl (fun t kv => t.setStorageWord kv.1 kv.2) s

/-- extract(i) on the live structure (41_packed_array.md R103). -/
def readField (s : State) (i : Nat) : Nat := extractField s.params.wb s.fw i (storageWord s)

/-- insert(i, v) on the live structure (41_packed_array.md R104). -/
def State.insertField (s : State) (i v : Nat) : State :=
  s.setStorageWords (fieldWrites s.params.wb s.fw i v (storageWord s))

/-- The fault of an access to word `k` of the buffer, if its space does not have it. Never in a state that keeps 10_state.md
R28 (41_packed_array.md R102). Log entry 6: safe. -/
def storageFault (s : State) (k : Nat) : Option Fault :=
  match s.mode with
  | .owned => if k < s.params.ownedWords then none else some .oramAddress
  | .borrowed => if s.base + k < 2 ^ s.params.xaddrBits then none else some .xmemAddress

/-- The fault of accessing the words of span `i`, if any. -/
def spanFault (s : State) (i : Nat) : Option Fault :=
  (spanWords s.params.wb s.fw i).findSome? (storageFault s)

/-- NW of the configured structure (10_state.md R29). -/
def State.nw (s : State) : Nat := wordCount s.params.wb s.fw s.cap

/-! ### Configuration and response -/

/-- The end of a live owned structure: its words hold unspecified contents from now on (41_packed_array.md R113, 93 I-3). -/
def State.forgetOwned (s : State) : State :=
  if s.cfgValid && s.mode == .owned then { s with oram := [], draws := s.draws + 1 } else s

/-- Make a structure live, in place of any previous one (41_packed_array.md R109, R110). -/
def State.install (s : State) (m : Mode) (w c b : Nat) : State :=
  { s.forgetOwned with cfgValid := true, mode := m, fw := w, cap := c, base := b }

/-- The zero fill of CFGO (41_packed_array.md R108): words below `n` are 0, every other word is unspecified (10_state.md R30). -/
def State.zeroFill (s : State) (n : Nat) : State := { s with oram := Memory.zeros n }

/-- Destroy the live structure (41_packed_array.md R113). -/
def State.retire (s : State) : State := { s.forgetOwned with cfgValid := false }

/-- The response joins those the host has taken (00_scope.md R17, 30_encoding.md R78). -/
def State.addResponse (s : State) (r : Response) : State := { s with rsps := r :: s.rsps }

/-- respond(status, data) (00_scope.md R17): the end of every command. -/
def respond (st : Status) (data : Nat) (s : State) : Host.Outcome State Fault Refusal :=
  .next (s.addResponse { status := st, data := data })

/-- The end of a command whose checks failed: the failing status, data 0 and no effect (60_exceptions.md R170). -/
def failWith (st : Status) (s : State) : Host.Outcome State Fault Refusal := respond st 0 s

end Sys2Proof.Machine
end

