-- ==== Sys2Proof/Machine/PackedArray.lean ====
section
/-! DEFINITION. The packed-array unit: CFGO, CFGB, GET, WRITE, RELEASE (41_packed_array.md R109 to R113). -/

namespace Sys2Proof.Machine

/-- CFGO fw, cap (41_packed_array.md R109). BASE is left unchanged. -/
def execCfgo (w c : Nat) (s : State) : Host.Outcome State Fault Refusal :=
  if cfgoStatus s.params w c = .ok then
    respond .ok 0 ((s.install .owned w c s.base).zeroFill (wordCount s.params.wb w c))
  else failWith (cfgoStatus s.params w c) s

/-- CFGB fw, cap, base (41_packed_array.md R110). No storage word is accessed. -/
def execCfgb (w c b : Nat) (s : State) : Host.Outcome State Fault Refusal :=
  if cfgbStatus s.params w c b = .ok then respond .ok 0 (s.install .borrowed w c b)
  else failWith (cfgbStatus s.params w c b) s

/-- GET idx (41_packed_array.md R111). -/
def execGet (i : Nat) (s : State) : Host.Outcome State Fault Refusal :=
  if accessStatus s i = .ok then
    match spanFault s i with
    | some f => .fault f
    | none => respond .ok (readField s i) s
  else failWith (accessStatus s i) s

/-- WRITE idx, value (41_packed_array.md R112): the value is truncated to FW bits. -/
def execWrite (i value : Nat) (s : State) : Host.Outcome State Fault Refusal :=
  if accessStatus s i = .ok then
    match spanFault s i with
    | some f => .fault f
    | none => respond .ok 0 (s.insertField i (trunc s.fw value))
  else failWith (accessStatus s i) s

/-- RELEASE (41_packed_array.md R113). -/
def execRelease (s : State) : Host.Outcome State Fault Refusal := respond .ok 0 s.retire

end Sys2Proof.Machine
end

