-- ==== Sys2Proof/Machine/Popcount.lean ====
section
/-! DEFINITION. The popcount unit: the SWAR population count, the popcount table ROM, POPCNT, RANK and PCTFILL
(42_popcount_table.md). -/

namespace Sys2Proof.Machine

/-- The bits of M_k below bit `n` (42_popcount_table.md R140). -/
def laneMaskBelow (k : Nat) : Nat → Nat
  | 0 => 0
  | b + 1 => laneMaskBelow k b + (if b % 2 ^ (k + 1) < 2 ^ k then 2 ^ b else 0)

/-- M_k: the low half of every 2^(k+1)-bit lane (42_popcount_table.md R140). -/
def laneMask (wb k : Nat) : Nat := laneMaskBelow k wb

/-- Step k of the fold, a WB-bit add of the two halves of every lane (42_popcount_table.md R141). -/
def swarStep (wb k : Nat) (x : Nat) : Nat :=
  trunc wb ((x &&& laneMask wb k) + ((x >>> 2 ^ k) &&& laneMask wb k))

/-- The first `n` steps of the fold (42_popcount_table.md R141). -/
def swarSteps (wb : Nat) : Nat → Nat → Nat
  | 0, x => x
  | k + 1, x => swarStep wb k (swarSteps wb k x)

/-- swar_popcount(x): all L = log2(WB) steps (42_popcount_table.md R141). -/
def swarPopcount (wb : Nat) (x : Nat) : Nat := swarSteps wb (Nat.log2 wb) x

/-- The first `n` elements of the popcount table of width `w`, written over zero words by insert(i, swar_popcount(i)) for i
ascending (42_popcount_table.md R144, R146). -/
def promFill (wb w : Nat) : Nat → Memory
  | 0 => []
  | i + 1 =>
    let m := promFill wb w i
    (fieldWrites wb w i (swarPopcount wb i) (Memory.word m)).foldl (fun t kv => Memory.setWord t kv.1 kv.2) m

/-- PROM: the popcount table of width PW; its tail bits are 0 (42_popcount_table.md R145, R146). A constant of the block:
no command and no reset changes it (R147). -/
def prom (p : Params) : Memory := promFill p.wb p.pw (2 ^ p.pw)

/-- PROM[k] (00_scope.md R16). -/
def promWord (p : Params) (k : Nat) : Nat := Memory.word (prom p) k

/-- POPCNT value (42_popcount_table.md R148). -/
def execPopcnt (x : Nat) (s : State) : Host.Outcome State Fault Refusal :=
  respond .ok (swarPopcount s.params.wb x) s

/-- RANK pattern (42_popcount_table.md R149): extract with FW = PW and S(k) = PROM[k]. -/
def execRank (pattern : Nat) (s : State) : Host.Outcome State Fault Refusal :=
  if rankStatus s.params pattern = .ok then
    respond .ok (extractField s.params.wb s.params.pw pattern (promWord s.params)) s
  else failWith (rankStatus s.params pattern) s

/-- The element loop of PCTFILL: insert(i, swar_popcount(i)) for i = 0, 1, ..., n-1 (42_popcount_table.md R151, R153). -/
def State.fillTable (s : State) : Nat → State
  | 0 => s
  | i + 1 => (s.fillTable i).insertField i (swarPopcount s.params.wb i)

/-- PCTFILL w, base (42_popcount_table.md R151). -/
def execPctfill (w b : Nat) (s : State) : Host.Outcome State Fault Refusal :=
  if pctfillStatus s.params w b = .ok then
    respond .ok 0 ((s.install .borrowed w (2 ^ w) b).fillTable (2 ^ w))
  else failWith (pctfillStatus s.params w b) s

end Sys2Proof.Machine
end

