-- ==== Sys2Proof/Machine/Reserved.lean ====
section
/-! DEFINITION. The reserved commands, op 0x0 and 0x9 to 0xF (30_encoding.md R81): no state changes, no storage is accessed,
and the response is (E_ILLEGAL, 0). There is no trap. -/

namespace Sys2Proof.Machine

/-- What every reserved command does (30_encoding.md R81). -/
def illegalCommand (s : State) : Host.Outcome State Fault Refusal := respond .illegal 0 s

/-- op 0x0, the idle or cleared command bus (30_encoding.md R81). -/
def execReserved0 (s : State) : Host.Outcome State Fault Refusal := illegalCommand s

/-- op 0x9 (30_encoding.md R81). -/
def execReserved9 (s : State) : Host.Outcome State Fault Refusal := illegalCommand s

/-- op 0xA (30_encoding.md R81). -/
def execReservedA (s : State) : Host.Outcome State Fault Refusal := illegalCommand s

/-- op 0xB (30_encoding.md R81). -/
def execReservedB (s : State) : Host.Outcome State Fault Refusal := illegalCommand s

/-- op 0xC (30_encoding.md R81). -/
def execReservedC (s : State) : Host.Outcome State Fault Refusal := illegalCommand s

/-- op 0xD (30_encoding.md R81). -/
def execReservedD (s : State) : Host.Outcome State Fault Refusal := illegalCommand s

/-- op 0xE (30_encoding.md R81). -/
def execReservedE (s : State) : Host.Outcome State Fault Refusal := illegalCommand s

/-- op 0xF (30_encoding.md R81). -/
def execReservedF (s : State) : Host.Outcome State Fault Refusal := illegalCommand s

end Sys2Proof.Machine
end

