-- ==== Sys2Proof/Machine/Dispatch.lean ====
section
/-! DEFINITION. One arm per command: the meaning of each. -/

namespace Sys2Proof.Machine

/-- What a command does from an IDLE state: one atomic step that yields one response (70_reset_and_hazards.md R196). -/
def exec (i : Instr) (s : State) : Host.Outcome State Fault Refusal :=
  match i with
  -- the packed-array unit
  | .cfgo fw cap => Sys2Proof.Machine.execCfgo fw cap s
  | .cfgb fw cap base => Sys2Proof.Machine.execCfgb fw cap base s
  | .get idx => Sys2Proof.Machine.execGet idx s
  | .write idx value => Sys2Proof.Machine.execWrite idx value s
  | .release => Sys2Proof.Machine.execRelease s
  -- the popcount unit
  | .rank pattern => Sys2Proof.Machine.execRank pattern s
  | .popcnt value => Sys2Proof.Machine.execPopcnt value s
  | .pctfill w base => Sys2Proof.Machine.execPctfill w base s
  -- the reserved commands
  | .reserved0 => Sys2Proof.Machine.execReserved0 s
  | .reserved9 => Sys2Proof.Machine.execReserved9 s
  | .reservedA => Sys2Proof.Machine.execReservedA s
  | .reservedB => Sys2Proof.Machine.execReservedB s
  | .reservedC => Sys2Proof.Machine.execReservedC s
  | .reservedD => Sys2Proof.Machine.execReservedD s
  | .reservedE => Sys2Proof.Machine.execReservedE s
  | .reservedF => Sys2Proof.Machine.execReservedF s

end Sys2Proof.Machine
end

