-- ==== Sys2Proof/Machine/Port.lean ====
section
/-! DEFINITION. The block's ports at transaction level: the external storage accesses a command makes (30_encoding.md R79,
20_memory.md R57), the host's writes to XMEM (20_memory.md R64), reset (70_reset_and_hazards.md R190), and reset during a
command (R193). -/

namespace Sys2Proof.Machine

/-- One word access on the external storage port (30_encoding.md R79). -/
inductive XmAccess where
  | read (addr : Nat)
  | write (addr : Nat) (v : Nat)
  deriving DecidableEq, Repr

/-- The accesses of an extract(i): one read, or two with word k0 first (41_packed_array.md R103). None in OWNED mode. -/
def extractAccesses (s : State) (i : Nat) : List XmAccess :=
  match s.mode with
  | .owned => []
  | .borrowed => (spanWords s.params.wb s.fw i).map (fun k => .read (s.base + k))

/-- The accesses of an insert(i, v): each affected word is read once and then written once (41_packed_array.md R104). -/
def insertAccesses (s : State) (i v : Nat) : List XmAccess :=
  match s.mode with
  | .owned => []
  | .borrowed =>
    (fieldWrites s.params.wb s.fw i v (storageWord s)).flatMap
      (fun kv => [.read (s.base + kv.1), .write (s.base + kv.1) kv.2])

/-- The accesses of the first `n` inserts of PCTFILL (42_popcount_table.md R153). -/
def fillAccesses (s : State) : Nat → List XmAccess
  | 0 => []
  | i + 1 => fillAccesses s i ++ insertAccesses (s.fillTable i) i (swarPopcount s.params.wb i)

/-- The external storage accesses command `i` makes from state `s`, in order (20_memory.md R57). -/
def xmAccesses (i : Instr) (s : State) : List XmAccess :=
  match i with
  | .get idx => if accessStatus s idx = .ok then extractAccesses s idx else []
  | .write idx value => if accessStatus s idx = .ok then insertAccesses s idx (trunc s.fw value) else []
  | .pctfill w b =>
    if pctfillStatus s.params w b = .ok then fillAccesses (s.install .borrowed w (2 ^ w) b) (2 ^ w) else []
  | .cfgo _ _ => []
  | .cfgb _ _ _ => []
  | .release => []
  | .rank _ => []
  | .popcnt _ => []
  | .reserved0 => []
  | .reserved9 => []
  | .reservedA => []
  | .reservedB => []
  | .reservedC => []
  | .reservedD => []
  | .reservedE => []
  | .reservedF => []

/-- The write an access makes, if it is one. -/
def XmAccess.written : XmAccess → Option (Nat × Nat)
  | .read _ => none
  | .write a v => some (a, v)

/-- The external word writes command `i` makes from state `s`, in order. -/
def xmWrites (i : Instr) (s : State) : List (Nat × Nat) := (xmAccesses i s).filterMap XmAccess.written

/-- The values a list of writes puts into address `a`, in order. -/
def valuesWritten (ws : List (Nat × Nat)) (a : Nat) : List Nat :=
  (ws.filter (fun c => c.1 == a)).map Prod.snd

/-- What an external word that an abandoned command would have written holds after the reset: its value from before the
command or a value the command wrote into it, by a free draw (70_reset_and_hazards.md R193, log entry 8). -/
def abandonedWord (draw : Nat) (ws : List (Nat × Nat)) (m : Memory) (a : Nat) : Nat :=
  let possible := Memory.word m a :: valuesWritten ws a
  possible.getD (Config.resetChoice draw a % possible.length) (Memory.word m a)

/-- XMEM after a reset that abandons a command with the writes `ws`: each word is drawn for itself
(70_reset_and_hazards.md R193). -/
def abandonedXmem (draw : Nat) (ws : List (Nat × Nat)) (m : Memory) : Memory :=
  (ws.map Prod.fst).foldl (fun t a => Memory.setWord t a (abandonedWord draw ws m a)) m

/-- Reset (70_reset_and_hazards.md R190, R191): registers 0, IDLE, ORAM unspecified, XMEM and PROM unchanged. -/
def State.resetBlock (s : State) : State :=
  { s with cfgValid := false, mode := .owned, fw := 0, cap := 0, base := 0, oram := [], phase := .idle, draws := s.draws + 1 }

/-- Reset while command `i` is BUSY or its response is not yet taken (70_reset_and_hazards.md R193): no response, and XMEM
is drawn word by word. -/
def State.abandon (s : State) (i : Instr) : State :=
  { s with xmem := abandonedXmem s.draws (xmWrites i s) s.xmem }.resetBlock

/-- The host writes one external word between commands (20_memory.md R64). -/
def hostWrite (a : Nat) (v : Nat) (s : State) : Host.Outcome State Fault Refusal :=
  if a < 2 ^ s.params.xaddrBits then .next (s.setXmemWord a v) else .fault .xmemAddress

/-- Take up the host's oldest move: the moves that are left. -/
def State.withInput (s : State) (rest : List HostEvent) : State := { s with input := rest }

/-- Accept a command word whose response is not taken before the host's next move (10_state.md R34). -/
def State.acceptCommand (s : State) (cw : Nat) : State := { s with phase := .busy cw }

/-- The block is IDLE again: the command in flight completes (10_state.md R34, R36). -/
def State.toIdle (s : State) : State := { s with phase := .idle }

/-- The state in which the host's next move is to present command word `cw` to the IDLE block. -/
def State.present (s : State) (cw : Nat) : State := { s with phase := .idle, input := .command cw :: s.input }

end Sys2Proof.Machine
end

