-- ==== Sys2Proof/Machine/Step.lean ====
section
/-! DEFINITION. One step of the block: the next move of the host, or the completion of the command in flight. -/

namespace Sys2Proof.Machine

/-- One step. IDLE: take up the host's oldest move; a presented command runs as one atomic step (70_reset_and_hazards.md R196);
with no move waiting the block stays as it is. BUSY: the command in flight completes (R201), unless the host's next move is
`rst`, which abandons it (R193). -/
def step (s : State) : Host.Outcome State Fault Refusal :=
  match s.phase, s.input with
  | .idle, [] => .next s
  | .idle, .command cw :: rest => exec (decode s.params cw) (s.withInput rest)
  | .idle, .accept cw :: rest => .next ((s.withInput rest).acceptCommand cw)
  | .idle, .write a v :: rest => hostWrite a v (s.withInput rest)
  | .idle, .reset :: rest => .next (s.withInput rest).resetBlock
  | .busy cw, .reset :: rest => .next ((s.withInput rest).abandon (decode s.params cw))
  | .busy cw, _ => exec (decode s.params cw) s.toIdle

/-- `s` with a command word, numbered as spec/opcode_table.json numbers it, as the host's next move to an IDLE block: the very
next step runs it (log entry 2). -/
def State.withFetchWord (s : State) (nbits w : Nat) : State := s.present (tableWord s.params nbits w)

end Sys2Proof.Machine
end

