-- ==== Sys2Proof/Machine/Layout.lean ====
section
/-! DEFINITION. The layout of fields as the spec's invariants state it, apart from the shifts of extract and insert: stream
positions (00_scope.md R14) and the value of an element (20_memory.md R52). -/

namespace Sys2Proof.Machine

/-- sbit(p): the stream bit at position `pos` of the words `rd` (00_scope.md R14). -/
def streamBit (wb : Nat) (rd : Nat → Nat) (pos : Nat) : Bool := (rd (pos / wb)).testBit (wb - 1 - pos % wb)

/-- The sum of sbit(start + j) * 2^(fw-1-j) over j < n (20_memory.md R52). -/
def layoutSum (wb fw start : Nat) (rd : Nat → Nat) : Nat → Nat
  | 0 => 0
  | j + 1 => layoutSum wb fw start rd j + (streamBit wb rd (start + j)).toNat * 2 ^ (fw - 1 - j)

/-- V(i): the value of element `i` (20_memory.md R52). -/
def layoutValue (wb fw i : Nat) (rd : Nat → Nat) : Nat := layoutSum wb fw (i * fw) rd fw

end Sys2Proof.Machine
end

