-- ==== Sys2Proof/Safety.lean ====
section
/-! DEFINITION. The legal states of the block (`State.Inv`) and what a safe step is, in the terms the statements use. -/

namespace Sys2Proof.Machine

/-- A host move the ports can carry: command words of CWW bits (30_encoding.md R70, R77), addresses of XADDR_BITS bits and
words of WB bits (R79). -/
def HostEvent.fits (p : Params) : HostEvent → Bool
  | .command cw => cw < 2 ^ cww p
  | .accept cw => cw < 2 ^ cww p
  | .write a v => a < 2 ^ p.xaddrBits && v < 2 ^ p.wb
  | .reset => true

/-- A command in flight is a command word (30_encoding.md R70). -/
def Phase.fits (p : Params) : Phase → Bool
  | .idle => true
  | .busy cw => cw < 2 ^ cww p

/-- A response the port can carry, with data 0 unless the status is OK (30_encoding.md R76, 60_exceptions.md R170). -/
def Response.fits (p : Params) (r : Response) : Bool := r.data < 2 ^ p.wb && (r.status == .ok || r.data == 0)

/-- How many words of ORAM have a stated value: those of a live owned structure (10_state.md R30). -/
def State.liveOwnedWords (s : State) : Nat := if s.cfgValid && s.mode == .owned then s.nw else 0

/-- The legal states: parameters in range (00_scope.md R7 to R11), registers within their widths (10_state.md R25 to R27), the
configuration invariant (R28), memories in canonical form, ORAM's stated words exactly those of a live owned structure (R30),
and ports that carry what they can carry. -/
structure State.Inv (s : State) : Prop where
  params : s.params.Valid
  fwWidth : s.fw < 2 ^ 8
  capWidth : s.cap < 2 ^ s.params.idxBits
  baseWidth : s.base < 2 ^ s.params.xaddrBits
  widthLegal : s.cfgValid = true → 1 ≤ s.fw ∧ s.fw ≤ s.params.wb
  ownedFits : s.cfgValid = true → s.mode = .owned → s.nw ≤ s.params.ownedWords
  borrowedFits : s.cfgValid = true → s.mode = .borrowed → s.base + s.nw ≤ 2 ^ s.params.xaddrBits
  oramListed : s.oram.map Prod.fst = List.range s.liveOwnedWords
  oramWords : ∀ c ∈ s.oram, c.2 < 2 ^ s.params.wb
  xmemForm : Memory.wf zeroWord (2 ^ s.params.xaddrBits) s.params.wb s.xmem
  phaseFits : s.phase.fits s.params = true
  inputFits : ∀ e ∈ s.input, e.fits s.params = true
  rspsFit : ∀ r ∈ s.rsps, r.fits s.params = true

/-! ### What a command leaves as it was -/

/-- The configuration registers of 10_state.md R23 to R27 are the same. -/
def State.sameConfig (s t : State) : Prop :=
  t.cfgValid = s.cfgValid ∧ t.mode = s.mode ∧ t.fw = s.fw ∧ t.cap = s.cap ∧ t.base = s.base

/-- The parameters, the phase and the host's moves still to come are the same. -/
def State.samePorts (s t : State) : Prop := t.params = s.params ∧ t.phase = s.phase ∧ t.input = s.input

/-- Every word of XMEM is the same. -/
def State.sameXmem (s t : State) : Prop := ∀ a, xmemWord t a = xmemWord s a

/-- Every word of ORAM is the same, those without a stated value too. -/
def State.sameOram (s t : State) : Prop := ∀ k, oramWord t k = oramWord s k

/-- The one response of a command that took `s` to `t` (00_scope.md R17). -/
def State.responded (s t : State) (st : Status) (data : Nat) : Prop := t.rsps = ⟨st, data⟩ :: s.rsps

/-- The word address of an access. -/
def XmAccess.addr : XmAccess → Nat
  | .read a => a
  | .write a _ => a

/-- Whether an access is a write, and its word address (30_encoding.md R79). -/
def XmAccess.shape : XmAccess → Bool × Nat
  | .read a => (false, a)
  | .write a _ => (true, a)

/-- A step that goes on: no fault and no refusal. -/
def stepsSafely (s : State) : Prop := ∃ t, step s = .next t

end Sys2Proof.Machine
end

