-- ==== Sys2Proof/Certificates/Slice0/Obligations.lean ====
section
/-! DEFINITION. The statements for the provers. Each is about every parameter instance the spec allows, since the parameters
stand in the state. A reserved word, a failing command and a trap-free machine have their statements beside the completing
commands. -/

open Sys2Proof Sys2Proof.Machine

/-! ### Encoding -/

/-- 30_encoding.md sections 1 and 6: the assembler's word of every well-formed command is a command word, and it decodes to that
command, with every operand at every value its field admits. -/
def Obligations.DecodeOfEncodeIsIdentity : Prop :=
  ∀ (p : Params) (i : Instr), i.wellFormed p = true → encode p i < 2 ^ cww p ∧ decode p (encode p i) = i

/-- 30_encoding.md R73, R75 with the field positions of R70: op alone selects the command, every operand is the unsigned value of
its field, and every CWW-bit word is one of the eight commands or reserved. -/
def Obligations.OpFieldSelectsTheCommand : Prop :=
  ∀ (p : Params) (cw op fw idx val : Nat), cw < 2 ^ (12 + p.idxBits + p.wb) →
    op = cw / 2 ^ (p.wb + p.idxBits + 8) → fw = cw / 2 ^ (p.wb + p.idxBits) % 2 ^ 8 →
    idx = cw / 2 ^ p.wb % 2 ^ p.idxBits → val = cw % 2 ^ p.wb →
    op < 16 ∧
    (op = 0x0 → decode p cw = .reserved0) ∧
    (op = 0x1 → decode p cw = .cfgo fw idx) ∧
    (op = 0x2 → decode p cw = .cfgb fw idx val) ∧
    (op = 0x3 → decode p cw = .get idx) ∧
    (op = 0x4 → decode p cw = .write idx val) ∧
    (op = 0x5 → decode p cw = .release) ∧
    (op = 0x6 → decode p cw = .rank idx) ∧
    (op = 0x7 → decode p cw = .popcnt val) ∧
    (op = 0x8 → decode p cw = .pctfill fw val) ∧
    (op = 0x9 → decode p cw = .reserved9) ∧
    (op = 0xA → decode p cw = .reservedA) ∧
    (op = 0xB → decode p cw = .reservedB) ∧
    (op = 0xC → decode p cw = .reservedC) ∧
    (op = 0xD → decode p cw = .reservedD) ∧
    (op = 0xE → decode p cw = .reservedE) ∧
    (op = 0xF → decode p cw = .reservedF)

/-- 30_encoding.md section 7, and reserved words of 95_test_vectors.md section 2.7: the words written out there decode to the
commands they stand for. A sanity statement. -/
def Obligations.ExampleWordsDecode : Prop :=
  decode Config.block 0x107000000400000000000000000 = .cfgo 7 64 ∧
  decode Config.block 0x20D000000640000000000001000 = .cfgb 13 100 0x1000 ∧
  decode Config.block 0x300000000090000000000000000 = .get 9 ∧
  decode Config.block 0x4000000000200000000000000FF = .write 2 255 ∧
  decode Config.block 0x500000000000000000000000000 = .release ∧
  decode Config.block 0x600000000FF0000000000000000 = .rank 0xFF ∧
  decode Config.block 0x7000000000000000000DEADBEEF = .popcnt 0xDEADBEEF ∧
  decode Config.block 0x803000000000000000000000100 = .pctfill 3 0x100 ∧
  decode Config.block 0x000000000000000000000000000 = .reserved0 ∧
  decode Config.block 0xC01000000020000000000000003 = .reservedC ∧
  decode Config.block 0xF07000000070000000000000007 = .reservedF

/-- 30_encoding.md section 4 and 60_exceptions.md section 1: a response word carries its status in the top 3 bits and its data
below; reading it back gives the response; a word with status 7 is refused and every other word is some response's. -/
def Obligations.ResponseWordCarriesStatusAndData : Prop :=
  ∀ (wb : Nat),
    (∀ r : Response, r.data < 2 ^ wb →
      r.word wb < 2 ^ (wb + 3) ∧ r.word wb / 2 ^ wb = r.status.code ∧ r.word wb % 2 ^ wb = r.data ∧
      Response.ofWord wb (r.word wb) = some r) ∧
    (∀ n, n < 2 ^ (wb + 3) →
      (n / 2 ^ wb = 7 → Response.ofWord wb n = none) ∧
      (n / 2 ^ wb ≠ 7 → ∃ r, Response.ofWord wb n = some r ∧ r.word wb = n))

/-! ### Steps -/

/-- A step runs the decoded command. From an IDLE state the host's next command word runs as `exec` of what it decodes to, with
that move taken up (70_reset_and_hazards.md R196). Two clauses are the model's choice, not a rule: that a command in flight
completes in the very next step, with the phase back at IDLE, unless the next move is `rst` (log entries 7 and 10, DEDUCED), and
that `withFetchWord` makes the next step run the word it is given (log entry 2, DEDUCED). -/
def Obligations.StepRunsTheDecodedCommand : Prop :=
  (∀ (s : State) (cw : Nat) (rest : List HostEvent), s.phase = .idle → s.input = .command cw :: rest →
    step s = exec (decode s.params cw) { s with input := rest }) ∧
  (∀ (s : State) (cw : Nat), s.phase = .busy cw → s.input.head? ≠ some .reset →
    step s = exec (decode s.params cw) { s with phase := .idle }) ∧
  (∀ (s : State) (nbits w : Nat),
    step (s.withFetchWord nbits w) = exec (decode s.params (tableWord s.params nbits w)) { s with phase := .idle })

/-- Accepting a command, being BUSY and completing it gives what the one atomic step gives, when no reset comes between
(70_reset_and_hazards.md R196, 10_state.md R34, R36). That the command is BUSY over exactly one step and completes in the next is
the model's choice (log entries 7 and 10, DEDUCED): the spec gives no number of cycles. -/
def Obligations.AcceptThenCompleteIsOneAtomicCommand : Prop :=
  ∀ (s : State) (cw : Nat) (rest : List HostEvent), s.phase = .idle → s.input = .accept cw :: rest → rest.head? ≠ some .reset →
    ∃ t, step s = .next t ∧ t.phase = .busy cw ∧ t.rsps = s.rsps ∧ s.sameConfig t ∧ s.sameXmem t ∧ s.sameOram t ∧
      step t = step { s with input := .command cw :: rest }

/-- A reset of an IDLE block sets every register to 0 and the phase to IDLE, leaves ORAM unspecified, changes no word of XMEM or
PROM and gives no response (70_reset_and_hazards.md R191); after it GET and WRITE respond E_NOCFG (R192). `State.reset` has the
same register values. The model's choices: unspecified ORAM is a memory that lists no word (log entry 4), and the record of
responses the host has taken and its later moves are kept over the reset (log entry 7, DEDUCED). -/
def Obligations.ResetSetsEveryRegister : Prop :=
  (State.reset.cfgValid = false ∧ State.reset.mode = .owned ∧ State.reset.fw = 0 ∧ State.reset.cap = 0 ∧
    State.reset.base = 0 ∧ State.reset.phase = .idle) ∧
  (∀ (s : State) (rest : List HostEvent), s.phase = .idle → s.input = .reset :: rest →
    ∃ t, step s = .next t ∧
      t.cfgValid = false ∧ t.mode = .owned ∧ t.fw = 0 ∧ t.cap = 0 ∧ t.base = 0 ∧ t.phase = .idle ∧
      t.input = rest ∧ t.rsps = s.rsps ∧ t.params = s.params ∧
      (∀ k, Memory.lookup t.oram k = none) ∧ s.sameXmem t ∧ (∀ k, promWord t.params k = promWord s.params k) ∧
      (∀ i, exec (.get i) t = .next (t.addResponse ⟨.noCfg, 0⟩)) ∧
      (∀ i v, exec (.write i v) t = .next (t.addResponse ⟨.noCfg, 0⟩)))

/-- 70_reset_and_hazards.md R193 (log entry 8): a reset while a command is BUSY gives no response, resets the registers, leaves
every ORAM word unspecified, and leaves each external word either as it was or at a value the abandoned command would have
written into it; a word the command would not have written is unchanged. -/
def Obligations.ResetDuringACommandAbandonsIt : Prop :=
  ∀ (s : State) (cw : Nat) (rest : List HostEvent), s.phase = .busy cw → s.input = .reset :: rest →
    ∃ t, step s = .next t ∧
      t.cfgValid = false ∧ t.mode = .owned ∧ t.fw = 0 ∧ t.cap = 0 ∧ t.base = 0 ∧ t.phase = .idle ∧
      t.input = rest ∧ t.rsps = s.rsps ∧ t.params = s.params ∧
      (∀ k, Memory.lookup t.oram k = none) ∧
      (∀ a, xmemWord t a = xmemWord s a ∨ (a, xmemWord t a) ∈ xmWrites (decode s.params cw) s) ∧
      (∀ a, (∀ v, (a, v) ∉ xmWrites (decode s.params cw) s) → xmemWord t a = xmemWord s a)

/-- 20_memory.md R64 and 10_state.md R35: a host write to XMEM between commands changes that word alone and no register, and the
next command runs on the memory with the write. In BORROWED mode the buffer's words are those of XMEM with the write, and a GET
responds the value laid out in them; in OWNED mode the structure's words are as before. -/
def Obligations.HostWriteIsSeenByTheNextCommand : Prop :=
  ∀ (s : State) (a : Nat) (v : Nat) (rest : List HostEvent), s.phase = .idle → s.input = .write a v :: rest →
    a < 2 ^ s.params.xaddrBits →
    ∃ t, step s = .next t ∧ t.params = s.params ∧ t.phase = .idle ∧ t.input = rest ∧ t.rsps = s.rsps ∧
      s.sameConfig t ∧ s.sameOram t ∧ xmemWord t a = v ∧ (∀ b, b ≠ a → xmemWord t b = xmemWord s b) ∧
      (∀ cw rest', rest = .command cw :: rest' → step t = exec (decode s.params cw) { t with input := rest' }) ∧
      (s.mode = .borrowed → ∀ k, storageWord t k = if s.base + k = a then v else storageWord s k) ∧
      (s.mode = .borrowed → s.Inv → v < 2 ^ s.params.wb → s.cfgValid = true → ∀ i, i < s.cap →
        exec (.get i) t = .next (t.addResponse ⟨.ok,
          layoutValue s.params.wb s.fw i (fun k => if s.base + k = a then v else storageWord s k)⟩)) ∧
      (s.mode = .owned → (∀ k, storageWord t k = storageWord s k) ∧ ∀ i, readField t i = readField s i)

/-- In a legal state with a command in flight and no reset coming, the next step gives exactly one response, and the block is IDLE
(60_exceptions.md R174, 70_reset_and_hazards.md R201). That it is the next step is the model's choice (log entry 10, DEDUCED): R201
says only that the response comes after finitely many cycles. -/
def Obligations.BusyBlockAnswersInOneStep : Prop :=
  ∀ (s : State) (cw : Nat), s.Inv → s.phase = .busy cw → s.input.head? ≠ some .reset →
    ∃ t r, step s = .next t ∧ t.phase = .idle ∧ t.rsps = r :: s.rsps ∧ t.input = s.input

/-- 30_encoding.md R78 and 20_memory.md R62: from a legal IDLE state, command words presented one after the other are taken up in
their order, one in each step; step number k runs the command word number k, gives exactly one response and leaves the block legal
and IDLE. That a presented command and its response are one step is the model's form (log entries 7 and 10, DEDUCED). -/
def Obligations.EveryPresentedCommandIsAnswered : Prop :=
  ∀ (s : State) (cws : List Nat), s.Inv → s.phase = .idle → s.input = cws.map .command →
    (∀ k cw, cws[k]? = some cw → ∃ t u r,
      Host.Core.run Sys2Proof.core k s = .next t ∧ t.phase = .idle ∧ t.input = (cws.drop k).map .command ∧
      step t = .next u ∧ exec (decode s.params cw) { t with input := (cws.drop (k + 1)).map .command } = .next u ∧
      Host.Core.run Sys2Proof.core (k + 1) s = .next u ∧
      u.rsps = r :: t.rsps ∧ u.phase = .idle ∧ u.input = (cws.drop (k + 1)).map .command ∧ u.Inv) ∧
    ∃ t rs, Host.Core.run Sys2Proof.core cws.length s = .next t ∧ t.rsps = rs ++ s.rsps ∧ rs.length = cws.length ∧
      t.phase = .idle ∧ t.input = [] ∧ t.Inv

/-! ### The legal states -/

/-- The state after reset is legal (`State.Inv`): the registers of 70_reset_and_hazards.md R191 with the model's own choices of log
entries 1, 4, 5 and 7. -/
def Obligations.ResetStateIsLegal : Prop := State.reset.Inv

/-- Every step from a legal state gives a legal state: the configuration invariant 10_state.md R28, the register widths, the
canonical form of the memories, the stated words of ORAM (R30), and what the ports carry. -/
def Obligations.StepKeepsTheLegalStates : Prop := ∀ (s t : State), s.Inv → step s = .next t → t.Inv

/-- 60_exceptions.md R174: "Every command is total". A legal state always has a next state: no step from it faults. -/
def Obligations.LegalStatesNeverFault : Prop := ∀ (s : State), s.Inv → stepsSafely s

/-- 10_state.md R28: every command keeps the configuration invariant, and under it every word a GET or WRITE of an in-range index
touches lies inside its address space. -/
def Obligations.EveryCommandKeepsTheConfigurationInvariant : Prop :=
  ∀ (s t : State) (i : Instr),
    (s.cfgValid = true → (1 ≤ s.fw ∧ s.fw ≤ s.params.wb) ∧ (s.mode = .owned → s.nw ≤ s.params.ownedWords) ∧
      (s.mode = .borrowed → s.base + s.nw ≤ 2 ^ s.params.xaddrBits)) →
    exec i s = .next t →
    (t.cfgValid = true → (1 ≤ t.fw ∧ t.fw ≤ t.params.wb) ∧ (t.mode = .owned → t.nw ≤ t.params.ownedWords) ∧
      (t.mode = .borrowed → t.base + t.nw ≤ 2 ^ t.params.xaddrBits) ∧
      ∀ j, j < t.cap → ∀ k ∈ spanWords t.params.wb t.fw j, k < t.nw ∧ storageFault t k = none)

/-- 10_state.md R31, 42_popcount_table.md R147 and 00_scope.md section 3: no step changes the parameters or PROM. -/
def Obligations.NoStepChangesPromOrParameters : Prop :=
  ∀ (s t : State), step s = .next t → t.params = s.params ∧ ∀ k, promWord t.params k = promWord s.params k

/-! ### Rules over all commands -/

/-- 60_exceptions.md R170 and 00_scope.md R17: a command gives exactly one response; with any status other than OK the data is 0
and nothing else changes; each status has its code, code 7 is never produced, and each status comes only from the commands its
row names. -/
def Obligations.AFailingCommandHasNoEffect : Prop :=
  (Status.ok.code = 0 ∧ Status.illegal.code = 1 ∧ Status.noCfg.code = 2 ∧ Status.width.code = 3 ∧ Status.space.code = 4 ∧
    Status.base.code = 5 ∧ Status.range.code = 6) ∧
  (∀ st : Status, st.code ≠ 7) ∧
  (∀ (s t : State) (i : Instr), exec i s = .next t →
    ∃ r, t.rsps = r :: s.rsps ∧
      (r.status ≠ .ok → r.data = 0 ∧ t = s.addResponse r) ∧
      (r.status = .illegal → i ∈ [.reserved0, .reserved9, .reservedA, .reservedB, .reservedC, .reservedD, .reservedE, .reservedF]) ∧
      (r.status = .noCfg → (∃ j, i = .get j) ∨ ∃ j v, i = .write j v) ∧
      (r.status = .width → (∃ w c, i = .cfgo w c) ∨ (∃ w c b, i = .cfgb w c b) ∨ ∃ w b, i = .pctfill w b) ∧
      (r.status = .space → ∃ w c, i = .cfgo w c) ∧
      (r.status = .base → (∃ w c b, i = .cfgb w c b) ∨ ∃ w b, i = .pctfill w b) ∧
      (r.status = .range → (∃ j, i = .get j) ∨ (∃ j v, i = .write j v) ∨ ∃ x, i = .rank x))

/-- 10_state.md R23 to R27, R37: a configuration register changes only under the commands its rule names. -/
def Obligations.OnlyTheNamedCommandsWriteAConfigurationRegister : Prop :=
  ∀ (s t : State) (i : Instr), exec i s = .next t →
    (t.cfgValid ≠ s.cfgValid →
      (t.cfgValid = true ∧ ((∃ w c, i = .cfgo w c) ∨ (∃ w c b, i = .cfgb w c b) ∨ ∃ w b, i = .pctfill w b)) ∨
      (t.cfgValid = false ∧ i = .release)) ∧
    (t.mode ≠ s.mode ∨ t.fw ≠ s.fw ∨ t.cap ≠ s.cap →
      (∃ w c, i = .cfgo w c) ∨ (∃ w c b, i = .cfgb w c b) ∨ ∃ w b, i = .pctfill w b) ∧
    (t.base ≠ s.base → (∃ w c b, i = .cfgb w c b) ∨ ∃ w b, i = .pctfill w b)

/-- 41_packed_array.md R116, 20_memory.md R57, R50: only WRITE and PCTFILL change a word of XMEM, and only CFGO and WRITE give a
word of ORAM a new stated value. -/
def Obligations.OnlyTheNamedCommandsChangeStorage : Prop :=
  ∀ (s t : State) (i : Instr), exec i s = .next t →
    (∀ a, xmemWord t a ≠ xmemWord s a → (∃ j v, i = .write j v) ∨ ∃ w b, i = .pctfill w b) ∧
    (∀ k v, Memory.lookup t.oram k = some v → Memory.lookup s.oram k ≠ some v → (∃ w c, i = .cfgo w c) ∨ ∃ j x, i = .write j x)

/-- 20_memory.md R57, 42_popcount_table.md R147, R148, 30_encoding.md R81: GET, RANK, POPCNT and the reserved commands change
nothing but the record of responses: no register, no word of ORAM or XMEM, no port. -/
def Obligations.ReadingCommandsChangeNothing : Prop :=
  ∀ (s t : State) (i : Instr),
    ((∃ j, i = .get j) ∨ (∃ x, i = .rank x) ∨ (∃ x, i = .popcnt x) ∨
      i ∈ [.reserved0, .reserved9, .reservedA, .reservedB, .reservedC, .reservedD, .reservedE, .reservedF]) →
    exec i s = .next t →
    (∃ st d, s.responded t st d) ∧ s.sameConfig t ∧ s.samePorts t ∧ s.sameXmem t ∧ s.sameOram t

/-- 30_encoding.md R81: every reserved command completes: no state changes, no storage is accessed and the response is
(E_ILLEGAL, 0). There is no trap. -/
def Obligations.ReservedCommandsRespondIllegal : Prop :=
  ∀ (s : State) (i : Instr),
    i ∈ [.reserved0, .reserved9, .reservedA, .reservedB, .reservedC, .reservedD, .reservedE, .reservedF] →
    exec i s = .next (s.addResponse ⟨.illegal, 0⟩) ∧ xmAccesses i s = []

/-! ### The packed-array unit -/

/-- 41_packed_array.md R101: where span i lies, when it straddles, and the shifts that bring it to bit 0. -/
def Obligations.LocateGivesTheSpan : Prop :=
  ∀ (wb fw i : Nat), 1 ≤ fw → fw ≤ wb →
    spanWord wb fw i = i * fw / wb ∧ spanOffset wb fw i = i * fw % wb ∧ spanOffset wb fw i ≤ wb - 1 ∧
    (spanInOneWord wb fw i = true ↔ spanOffset wb fw i + fw ≤ wb) ∧
    (spanInOneWord wb fw i = true →
      spanShift wb fw i + spanOffset wb fw i + fw = wb ∧ spanShift wb fw i ≤ wb - 1) ∧
    (spanInOneWord wb fw i = false →
      spanHigh wb fw i + spanOffset wb fw i = wb ∧ 1 ≤ spanHigh wb fw i ∧ spanHigh wb fw i ≤ fw - 1 ∧
      spanHigh wb fw i + spanLow wb fw i = fw ∧ 1 ≤ spanLow wb fw i ∧ spanLow wb fw i ≤ fw - 1) ∧
    ceilDiv (i * fw + fw) wb - 1 = (i * fw + fw - 1) / wb ∧
    (i * fw + fw - 1) / wb ≤ spanWord wb fw i + 1 ∧
    (spanInOneWord wb fw i = true ↔ (i * fw + fw - 1) / wb = spanWord wb fw i) ∧
    (spanOffset wb fw i + fw = wb → spanInOneWord wb fw i = true ∧ spanShift wb fw i = 0)

/-- 41_packed_array.md R102: the words an in-range index touches lie inside the buffer. -/
def Obligations.InRangeSpanLiesInTheBuffer : Prop :=
  ∀ (wb fw cap i : Nat), 1 ≤ fw → fw ≤ wb → i < cap →
    spanWord wb fw i < wordCount wb fw cap ∧
    (spanInOneWord wb fw i = false → spanWord wb fw i + 1 < wordCount wb fw cap) ∧
    ∀ k ∈ spanWords wb fw i, k < wordCount wb fw cap

/-- 41_packed_array.md R118, over any words and any width: extract(i) is V(i) of 20_memory.md R52; after insert(i, v) V(i) is v
and every stream position outside span i is unchanged; and the words stay WB-bit words. -/
def Obligations.ExtractAndInsertAgreeWithTheLayout : Prop :=
  ∀ (wb fw i v : Nat) (rd rd' : Nat → Nat), 1 ≤ fw → fw ≤ wb → v < 2 ^ fw → (∀ k, rd k < 2 ^ wb) →
    (∀ k, rd' k = ((fieldWrites wb fw i v rd).lookup k).getD (rd k)) →
    extractField wb fw i rd = layoutValue wb fw i rd ∧
    layoutValue wb fw i rd' = v ∧
    (∀ pos, pos < i * fw ∨ (i + 1) * fw ≤ pos → streamBit wb rd' pos = streamBit wb rd pos) ∧
    (∀ k, rd' k < 2 ^ wb)

/-- 41_packed_array.md R109 (with R105, R106, R108): CFGO fw, cap. On success the structure is live and owned, BASE keeps its
value, the words below n are 0, the others have no stated value, and XMEM is unchanged; with c = 0 every later GET and WRITE is out of
range, and a full-width structure takes c words; E_WIDTH before E_SPACE. -/
def Obligations.CfgoConstructsAnOwnedStructure : Prop :=
  ∀ (s : State) (w c n : Nat), n = ceilDiv (w * c) s.params.wb →
    (w = 0 ∨ s.params.wb < w → exec (.cfgo w c) s = .next (s.addResponse ⟨.width, 0⟩)) ∧
    (1 ≤ w → w ≤ s.params.wb → s.params.ownedWords < n → exec (.cfgo w c) s = .next (s.addResponse ⟨.space, 0⟩)) ∧
    (1 ≤ w → w ≤ s.params.wb → n ≤ s.params.ownedWords →
      ∃ t, exec (.cfgo w c) s = .next t ∧ s.responded t .ok 0 ∧
        t.cfgValid = true ∧ t.mode = .owned ∧ t.fw = w ∧ t.cap = c ∧ t.base = s.base ∧
        (∀ k, k < n → Memory.lookup t.oram k = some 0) ∧ (∀ k, n ≤ k → Memory.lookup t.oram k = none) ∧
        s.sameXmem t ∧ s.samePorts t ∧
        (c = 0 → ∀ i v, exec (.get i) t = .next (t.addResponse ⟨.range, 0⟩) ∧
          exec (.write i v) t = .next (t.addResponse ⟨.range, 0⟩)) ∧
        (w = s.params.wb → n = c))

/-- 41_packed_array.md R110 (with R105, R107): CFGB fw, cap, base. On success the structure is live and borrowed and no word of
XMEM is accessed or changes; the words of a live owned structure it replaces have no stated value from now on, and otherwise
ORAM is as before; E_WIDTH before E_BASE. -/
def Obligations.CfgbConstructsABorrowedStructure : Prop :=
  ∀ (s : State) (w c b n : Nat), n = ceilDiv (w * c) s.params.wb →
    (w = 0 ∨ s.params.wb < w → exec (.cfgb w c b) s = .next (s.addResponse ⟨.width, 0⟩)) ∧
    (1 ≤ w → w ≤ s.params.wb → 2 ^ s.params.xaddrBits ≤ b ∨ 2 ^ s.params.xaddrBits < b + n →
      exec (.cfgb w c b) s = .next (s.addResponse ⟨.base, 0⟩)) ∧
    (1 ≤ w → w ≤ s.params.wb → b < 2 ^ s.params.xaddrBits → b + n ≤ 2 ^ s.params.xaddrBits →
      ∃ t, exec (.cfgb w c b) s = .next t ∧ s.responded t .ok 0 ∧
        t.cfgValid = true ∧ t.mode = .borrowed ∧ t.fw = w ∧ t.cap = c ∧ t.base = b ∧
        s.sameXmem t ∧ s.samePorts t ∧ xmAccesses (.cfgb w c b) s = [] ∧
        (s.cfgValid = true → s.mode = .owned → ∀ k, Memory.lookup t.oram k = none) ∧
        (s.cfgValid = false ∨ s.mode = .borrowed → s.sameOram t))

/-- 41_packed_array.md R111: GET idx. E_NOCFG, then E_RANGE, then the FW-bit value V(i) of 20_memory.md R52, read from the one or
two words of the span; a failed GET accesses nothing; nothing changes but the record of responses. -/
def Obligations.GetRespondsTheLayoutValue : Prop :=
  ∀ (s : State) (i : Nat),
    (s.cfgValid = false → exec (.get i) s = .next (s.addResponse ⟨.noCfg, 0⟩) ∧ xmAccesses (.get i) s = []) ∧
    (s.cfgValid = true → s.cap ≤ i → exec (.get i) s = .next (s.addResponse ⟨.range, 0⟩) ∧ xmAccesses (.get i) s = []) ∧
    (s.Inv → s.cfgValid = true → i < s.cap →
      exec (.get i) s = .next (s.addResponse ⟨.ok, layoutValue s.params.wb s.fw i (storageWord s)⟩) ∧
      layoutValue s.params.wb s.fw i (storageWord s) < 2 ^ s.fw ∧
      (s.mode = .borrowed → xmAccesses (.get i) s = (spanWords s.params.wb s.fw i).map (fun k => .read (s.base + k))))

/-- 41_packed_array.md R112: WRITE idx, value. E_NOCFG, then E_RANGE; otherwise the FW stream positions of span i hold
value mod 2^FW, most significant bit first, every other stream position of the buffer, tail bits too, is as before, and so are
the registers, the other memory, and every word outside the span's words. A failed WRITE accesses nothing. -/
def Obligations.WriteChangesExactlyTheSpan : Prop :=
  ∀ (s : State) (i v : Nat),
    (s.cfgValid = false → exec (.write i v) s = .next (s.addResponse ⟨.noCfg, 0⟩) ∧ xmAccesses (.write i v) s = []) ∧
    (s.cfgValid = true → s.cap ≤ i →
      exec (.write i v) s = .next (s.addResponse ⟨.range, 0⟩) ∧ xmAccesses (.write i v) s = []) ∧
    (s.Inv → s.cfgValid = true → i < s.cap →
      ∃ t, exec (.write i v) s = .next t ∧ s.responded t .ok 0 ∧ s.sameConfig t ∧ s.samePorts t ∧
        (∀ pos, pos < s.nw * s.params.wb →
          streamBit s.params.wb (storageWord t) pos =
            if i * s.fw ≤ pos ∧ pos < (i + 1) * s.fw then (v % 2 ^ s.fw).testBit ((i + 1) * s.fw - 1 - pos)
            else streamBit s.params.wb (storageWord s) pos) ∧
        (s.mode = .owned → s.sameXmem t ∧
          ∀ k, k ∉ spanWords s.params.wb s.fw i → oramWord t k = oramWord s k) ∧
        (s.mode = .borrowed → s.sameOram t ∧
          ∀ a, (∀ k ∈ spanWords s.params.wb s.fw i, a ≠ s.base + k) → xmemWord t a = xmemWord s a))

/-- 41_packed_array.md R113: RELEASE. CFG_VALID becomes 0 and the response is (OK, 0); every other register and every word of
XMEM keeps its value; the words of a live owned structure have no stated value from now on, and otherwise ORAM is as before;
with no live structure it is a no-op; after it GET and WRITE respond E_NOCFG. -/
def Obligations.ReleaseEndsTheStructure : Prop :=
  ∀ (s : State),
    (∃ t, exec .release s = .next t ∧ s.responded t .ok 0 ∧
      t.cfgValid = false ∧ t.mode = s.mode ∧ t.fw = s.fw ∧ t.cap = s.cap ∧ t.base = s.base ∧
      s.sameXmem t ∧ s.samePorts t ∧
      (s.cfgValid = true → s.mode = .owned → ∀ k, Memory.lookup t.oram k = none) ∧
      (s.cfgValid = false ∨ s.mode = .borrowed → s.sameOram t) ∧
      (∀ i, exec (.get i) t = .next (t.addResponse ⟨.noCfg, 0⟩)) ∧
      (∀ i v, exec (.write i v) t = .next (t.addResponse ⟨.noCfg, 0⟩))) ∧
    (s.cfgValid = false → exec .release s = .next (s.addResponse ⟨.ok, 0⟩))

/-- 41_packed_array.md R114, R115: after a successful WRITE i, v a GET of i responds (OK, v mod 2^FW), which is v itself when v
fits the field. -/
def Obligations.WriteThenGetReturnsTheTruncatedValue : Prop :=
  ∀ (s : State) (i v : Nat), s.Inv → s.cfgValid = true → i < s.cap →
    ∃ t, exec (.write i v) s = .next t ∧ exec (.get i) t = .next (t.addResponse ⟨.ok, v % 2 ^ s.fw⟩) ∧
      (v < 2 ^ s.fw → exec (.get i) t = .next (t.addResponse ⟨.ok, v⟩))

/-- 41_packed_array.md R116: a WRITE of index i changes what no other index reads, and no tail bit. -/
def Obligations.WriteDoesNotInterfereWithOtherIndices : Prop :=
  ∀ (s : State) (i v : Nat), s.Inv → s.cfgValid = true → i < s.cap →
    ∃ t, exec (.write i v) s = .next t ∧
      (∀ j, j < s.cap → j ≠ i →
        ∃ d, exec (.get j) s = .next (s.addResponse ⟨.ok, d⟩) ∧ exec (.get j) t = .next (t.addResponse ⟨.ok, d⟩)) ∧
      (∀ pos, s.fw * s.cap ≤ pos → pos < s.nw * s.params.wb →
        streamBit s.params.wb (storageWord t) pos = streamBit s.params.wb (storageWord s) pos)

/-- 41_packed_array.md R117: right after a successful CFGO w, c, GET of every i < c responds (OK, 0). -/
def Obligations.FreshOwnedStructureReadsZero : Prop :=
  ∀ (s : State) (w c : Nat), 1 ≤ w → w ≤ s.params.wb → ceilDiv (w * c) s.params.wb ≤ s.params.ownedWords →
    ∃ t, exec (.cfgo w c) s = .next t ∧ ∀ i, i < c → exec (.get i) t = .next (t.addResponse ⟨.ok, 0⟩)

/-! ### The popcount unit -/

/-- 42_popcount_table.md R140: bit b of M_k is 1 exactly when it lies in the low half of its 2^(k+1)-bit lane, below WB; at WB = 64
the masks are the six words of the rule. -/
def Obligations.LaneMaskIsTheLowHalfOfEveryLane : Prop :=
  (∀ (wb k b : Nat), (laneMask wb k).testBit b = (decide (b < wb) && decide (b % 2 ^ (k + 1) < 2 ^ k))) ∧
  laneMask 64 0 = 0x5555555555555555 ∧ laneMask 64 1 = 0x3333333333333333 ∧ laneMask 64 2 = 0x0F0F0F0F0F0F0F0F ∧
  laneMask 64 3 = 0x00FF00FF00FF00FF ∧ laneMask 64 4 = 0x0000FFFF0000FFFF ∧ laneMask 64 5 = 0x00000000FFFFFFFF

/-- 42_popcount_table.md R142: before step k each 2^k-bit lane holds the popcount of that lane of the operand, at most 2^k; the
add of step k does not carry out of the word; and the whole fold is the population count, at most WB. -/
def Obligations.SwarLanesHoldTheirPopcounts : Prop :=
  ∀ (p : Params) (x : Nat), p.Valid → x < 2 ^ p.wb →
    (∀ k j, k ≤ Nat.log2 p.wb → j * 2 ^ k < p.wb →
      (swarSteps p.wb k x >>> (j * 2 ^ k)) % 2 ^ 2 ^ k = popcount ((x >>> (j * 2 ^ k)) % 2 ^ 2 ^ k) ∧
      (swarSteps p.wb k x >>> (j * 2 ^ k)) % 2 ^ 2 ^ k ≤ 2 ^ k) ∧
    (∀ k, k < Nat.log2 p.wb →
      (swarSteps p.wb k x &&& laneMask p.wb k) + ((swarSteps p.wb k x >>> 2 ^ k) &&& laneMask p.wb k) < 2 ^ p.wb) ∧
    swarPopcount p.wb x = popcount x ∧ popcount x ≤ p.wb

/-- 42_popcount_table.md R143: the popcount of a w-bit pattern fits a w-bit field. -/
def Obligations.PopcountOfAPatternFitsItsWidth : Prop :=
  ∀ (w i : Nat), 1 ≤ w → i < 2 ^ w → popcount i ≤ w ∧ w ≤ 2 ^ w - 1

/-- 42_popcount_table.md R148: POPCNT responds the population count, at most WB, in every state with legal parameters; nothing
else changes. -/
def Obligations.PopcntRespondsThePopulationCount : Prop :=
  ∀ (s : State) (x : Nat), s.params.Valid → x < 2 ^ s.params.wb →
    exec (.popcnt x) s = .next (s.addResponse ⟨.ok, popcount x⟩) ∧ popcount x ≤ s.params.wb ∧ xmAccesses (.popcnt x) s = []

/-- 42_popcount_table.md R146: for every i < 2^PW the stream positions of element i of PROM hold popcount(i), most significant
bit first, and every tail bit is 0. -/
def Obligations.PromHoldsThePopcountTable : Prop :=
  ∀ (p : Params), p.Valid →
    (∀ i, i < 2 ^ p.pw → layoutValue p.wb p.pw i (promWord p) = popcount i) ∧
    (∀ pos, p.pw * 2 ^ p.pw ≤ pos → pos < promWords p * p.wb → streamBit p.wb (promWord p) pos = false)

/-- 42_popcount_table.md R149, R150: RANK responds (OK, popcount(p)) for every pattern below 2^PW and (E_RANGE, 0) for every
other, in every state with legal parameters; nothing else changes. -/
def Obligations.RankRespondsThePopcountOfThePattern : Prop :=
  ∀ (s : State) (x : Nat), s.params.Valid →
    (x < 2 ^ s.params.pw → exec (.rank x) s = .next (s.addResponse ⟨.ok, popcount x⟩)) ∧
    (2 ^ s.params.pw ≤ x → exec (.rank x) s = .next (s.addResponse ⟨.range, 0⟩)) ∧
    xmAccesses (.rank x) s = []

/-- 42_popcount_table.md R151: PCTFILL w, base. E_WIDTH before E_BASE; otherwise it completes with the structure live and
borrowed over the buffer and changes no word of XMEM outside the buffer; the words of a live owned structure it replaces have
no stated value from now on, and otherwise ORAM is as before. -/
def Obligations.PctfillMakesTheTableLive : Prop :=
  ∀ (s : State) (w b n : Nat), n = ceilDiv (w * 2 ^ w) s.params.wb →
    (w = 0 ∨ min s.params.wb (s.params.idxBits - 1) < w → exec (.pctfill w b) s = .next (s.addResponse ⟨.width, 0⟩)) ∧
    (1 ≤ w → w ≤ min s.params.wb (s.params.idxBits - 1) → 2 ^ s.params.xaddrBits ≤ b ∨ 2 ^ s.params.xaddrBits < b + n →
      exec (.pctfill w b) s = .next (s.addResponse ⟨.base, 0⟩)) ∧
    (1 ≤ w → w ≤ min s.params.wb (s.params.idxBits - 1) → b < 2 ^ s.params.xaddrBits → b + n ≤ 2 ^ s.params.xaddrBits →
      ∃ t, exec (.pctfill w b) s = .next t ∧ s.responded t .ok 0 ∧ s.samePorts t ∧
        t.cfgValid = true ∧ t.mode = .borrowed ∧ t.fw = w ∧ t.cap = 2 ^ w ∧ t.base = b ∧
        (∀ a, a < b ∨ b + n ≤ a → xmemWord t a = xmemWord s a) ∧
        (s.cfgValid = true → s.mode = .owned → ∀ k, Memory.lookup t.oram k = none) ∧
        (s.cfgValid = false ∨ s.mode = .borrowed → s.sameOram t))

/-- 42_popcount_table.md R152: after a PCTFILL responds OK, GET i responds (OK, popcount(i)) for every i < 2^w, the tail bits and
every word outside the buffer are unchanged, and with w = PW the field bits are those of PROM, so GET i and RANK i agree. -/
def Obligations.PctfillBuildsThePopcountTable : Prop :=
  ∀ (s : State) (w b n : Nat), s.Inv → n = ceilDiv (w * 2 ^ w) s.params.wb →
    1 ≤ w → w ≤ min s.params.wb (s.params.idxBits - 1) → b < 2 ^ s.params.xaddrBits → b + n ≤ 2 ^ s.params.xaddrBits →
    ∃ t, exec (.pctfill w b) s = .next t ∧ s.responded t .ok 0 ∧
      t.cfgValid = true ∧ t.mode = .borrowed ∧ t.fw = w ∧ t.cap = 2 ^ w ∧ t.base = b ∧
      (∀ i, i < 2 ^ w → exec (.get i) t = .next (t.addResponse ⟨.ok, popcount i⟩)) ∧
      (∀ pos, w * 2 ^ w ≤ pos → pos < n * s.params.wb →
        streamBit s.params.wb (fun k => xmemWord t (b + k)) pos = streamBit s.params.wb (fun k => xmemWord s (b + k)) pos) ∧
      (∀ a, a < b ∨ b + n ≤ a → xmemWord t a = xmemWord s a) ∧
      (w = s.params.pw →
        (∀ pos, pos < w * 2 ^ w →
          streamBit s.params.wb (fun k => xmemWord t (b + k)) pos = streamBit s.params.wb (promWord s.params) pos) ∧
        (∀ i, i < 2 ^ w → ∃ d, exec (.get i) t = .next (t.addResponse ⟨.ok, d⟩) ∧
          exec (.rank i) t = .next (t.addResponse ⟨.ok, d⟩)))

/-! ### The external storage port -/

/-- 20_memory.md R57, 41_packed_array.md R103, R104, 30_encoding.md R79: the external accesses of GET and WRITE, in order. In OWNED
mode, on a failure, and for every command but GET, WRITE and PCTFILL there is none; a failing PCTFILL makes none either
(42_popcount_table.md R151). -/
def Obligations.AccessesOfGetAndWrite : Prop :=
  ∀ (s : State) (i v : Nat),
    (∀ w c b x, xmAccesses (.cfgo w c) s = [] ∧ xmAccesses (.cfgb w c b) s = [] ∧ xmAccesses .release s = [] ∧
      xmAccesses (.rank x) s = [] ∧ xmAccesses (.popcnt x) s = []) ∧
    (∀ j ∈ [Instr.reserved0, .reserved9, .reservedA, .reservedB, .reservedC, .reservedD, .reservedE, .reservedF],
      xmAccesses j s = []) ∧
    (∀ w b, w = 0 ∨ min s.params.wb (s.params.idxBits - 1) < w ∨ 2 ^ s.params.xaddrBits ≤ b ∨
        2 ^ s.params.xaddrBits < b + ceilDiv (w * 2 ^ w) s.params.wb →
      xmAccesses (.pctfill w b) s = []) ∧
    (s.mode = .owned ∨ s.cfgValid = false ∨ s.cap ≤ i →
      xmAccesses (.get i) s = [] ∧ xmAccesses (.write i v) s = []) ∧
    (s.mode = .borrowed → s.cfgValid = true → i < s.cap → spanInOneWord s.params.wb s.fw i = true →
      xmAccesses (.get i) s = [.read (s.base + spanWord s.params.wb s.fw i)] ∧
      ∃ x, xmAccesses (.write i v) s =
        [.read (s.base + spanWord s.params.wb s.fw i), .write (s.base + spanWord s.params.wb s.fw i) x]) ∧
    (s.mode = .borrowed → s.cfgValid = true → i < s.cap → spanInOneWord s.params.wb s.fw i = false →
      xmAccesses (.get i) s =
        [.read (s.base + spanWord s.params.wb s.fw i), .read (s.base + (spanWord s.params.wb s.fw i + 1))] ∧
      ∃ x y, xmAccesses (.write i v) s =
        [.read (s.base + spanWord s.params.wb s.fw i), .write (s.base + spanWord s.params.wb s.fw i) x,
         .read (s.base + (spanWord s.params.wb s.fw i + 1)), .write (s.base + (spanWord s.params.wb s.fw i + 1)) y])

/-- 20_memory.md R63: XMEM after a command is XMEM before it with the writes the command made on the port: a word holds the last
value written to it, and its old value when none was. -/
def Obligations.PortWritesAreDoneWhenTheCommandResponds : Prop :=
  ∀ (s t : State) (i : Instr), exec i s = .next t →
    ∀ a, xmemWord t a = ((valuesWritten (xmWrites i s) a).getLast?).getD (xmemWord s a)

/-- 10_state.md R32, 20_memory.md R60: the block touches XMEM only under a live borrowed structure and only inside its buffer,
which lies inside the external address space. -/
def Obligations.AccessesStayInsideTheBuffer : Prop :=
  ∀ (s t : State) (i : Instr) (x : XmAccess), s.Inv → exec i s = .next t → x ∈ xmAccesses i s →
    t.cfgValid = true ∧ t.mode = .borrowed ∧ t.base ≤ x.addr ∧ x.addr < t.base + t.nw ∧ x.addr < 2 ^ s.params.xaddrBits

/-- 42_popcount_table.md R153, 20_memory.md R57, 41_packed_array.md R104: a PCTFILL that its checks accept makes the accesses of the
elements 0, 1, ..., 2^w - 1 in that order, and for each element reads and then writes each word of its span, word k0 first. -/
def Obligations.AccessesOfPctfill : Prop :=
  ∀ (s : State) (w b : Nat), 1 ≤ w → w ≤ min s.params.wb (s.params.idxBits - 1) → b < 2 ^ s.params.xaddrBits →
    b + ceilDiv (w * 2 ^ w) s.params.wb ≤ 2 ^ s.params.xaddrBits →
    (xmAccesses (.pctfill w b) s).map XmAccess.shape =
      (List.range (2 ^ w)).flatMap fun i =>
        (spanWords s.params.wb w i).flatMap fun k => [(false, b + k), (true, b + k)]
end

