-- ==== Sys2Proof/Laws/Span.lean ====
section
/-! SUPPORT. Small facts of the arithmetic primitives (00_scope.md R15), of word counts (10_state.md R29) and of the words a span
touches (41_packed_array.md R101), in the form later proofs use. -/

namespace Sys2Proof.Machine

theorem ceilDiv_le_iff {a b n : Nat} (hb : 0 < b) : ceilDiv a b ≤ n ↔ a ≤ n * b := by
  unfold ceilDiv
  rw [Nat.div_le_iff_le_mul_add_pred hb, Nat.mul_comm b n]
  omega

theorem lt_ceilDiv_iff {a b n : Nat} (hb : 0 < b) : n < ceilDiv a b ↔ n * b < a := by
  rw [← Nat.not_le, ceilDiv_le_iff hb, Nat.not_le]

@[simp] theorem mask_zero : mask 0 = 0 := rfl

theorem mask_lt (n : Nat) : mask n < 2 ^ n := Nat.sub_lt (Nat.two_pow_pos n) Nat.one_pos

@[simp] theorem testBit_mask (n b : Nat) : (mask n).testBit b = decide (b < n) := by
  unfold mask; exact Nat.testBit_two_pow_sub_one n b

/-- The complement of a WB-bit value flips exactly its WB bits (00_scope.md R15). -/
theorem testBit_complement {wb a : Nat} (h : a < 2 ^ wb) (b : Nat) :
    (complement wb a).testBit b = (decide (b < wb) && !a.testBit b) := by
  unfold complement mask
  rw [Nat.sub_sub, Nat.add_comm 1 a]
  exact Nat.testBit_two_pow_sub_succ h b

theorem trunc_lt (n v : Nat) : trunc n v < 2 ^ n := Nat.mod_lt _ (Nat.two_pow_pos n)

/-- The words of a span are word k0, and word k0+1 when the span straddles. -/
theorem mem_spanWords {wb fw i k : Nat} :
    k ∈ spanWords wb fw i ↔ k = spanWord wb fw i ∨ (spanInOneWord wb fw i = false ∧ k = spanWord wb fw i + 1) := by
  unfold spanWords
  cases h : spanInOneWord wb fw i <;> simp

/-- The writes of an insert go to the words of the span, in order. -/
theorem fieldWrites_addresses (wb fw i v : Nat) (rd : Nat → Nat) :
    (fieldWrites wb fw i v rd).map Prod.fst = spanWords wb fw i := by
  unfold fieldWrites spanWords
  cases h : spanInOneWord wb fw i <;> simp

/-- The stream position of the span's first bit, as word and offset (00_scope.md R14). -/
theorem span_start (wb fw i : Nat) : spanWord wb fw i * wb + spanOffset wb fw i = i * fw := by
  unfold spanWord spanOffset
  rw [Nat.mul_comm]; exact Nat.div_add_mod _ _

theorem spanOffset_lt {wb : Nat} (fw i : Nat) (h : 0 < wb) : spanOffset wb fw i < wb := Nat.mod_lt _ h

end Sys2Proof.Machine
end

