-- ==== Sys2Proof/Laws/State.lean ====
section
/-! SUPPORT. Every field after every named update of the state, so that no later proof unfolds a record update. -/

namespace Sys2Proof.Machine

/-! ### forgetOwned -/

@[simp] theorem State.forgetOwned_params (s : State) : s.forgetOwned.params = s.params := by unfold State.forgetOwned; split <;> rfl
@[simp] theorem State.forgetOwned_cfgValid (s : State) : s.forgetOwned.cfgValid = s.cfgValid := by unfold State.forgetOwned; split <;> rfl
@[simp] theorem State.forgetOwned_mode (s : State) : s.forgetOwned.mode = s.mode := by unfold State.forgetOwned; split <;> rfl
@[simp] theorem State.forgetOwned_fw (s : State) : s.forgetOwned.fw = s.fw := by unfold State.forgetOwned; split <;> rfl
@[simp] theorem State.forgetOwned_cap (s : State) : s.forgetOwned.cap = s.cap := by unfold State.forgetOwned; split <;> rfl
@[simp] theorem State.forgetOwned_base (s : State) : s.forgetOwned.base = s.base := by unfold State.forgetOwned; split <;> rfl
@[simp] theorem State.forgetOwned_xmem (s : State) : s.forgetOwned.xmem = s.xmem := by unfold State.forgetOwned; split <;> rfl
@[simp] theorem State.forgetOwned_phase (s : State) : s.forgetOwned.phase = s.phase := by unfold State.forgetOwned; split <;> rfl
@[simp] theorem State.forgetOwned_input (s : State) : s.forgetOwned.input = s.input := by unfold State.forgetOwned; split <;> rfl
@[simp] theorem State.forgetOwned_rsps (s : State) : s.forgetOwned.rsps = s.rsps := by unfold State.forgetOwned; split <;> rfl

theorem State.forgetOwned_oram (s : State) :
    s.forgetOwned.oram = if s.cfgValid = true ∧ s.mode = .owned then [] else s.oram := by
  unfold State.forgetOwned
  by_cases h : s.cfgValid = true ∧ s.mode = .owned
  · simp [h]
  · have : (s.cfgValid && s.mode == .owned) = false := by
      simpa using h
    simp [h, this]

/-! ### addResponse -/

@[simp] theorem State.addResponse_params (s : State) (r : Response) : (s.addResponse r).params = s.params := rfl
@[simp] theorem State.addResponse_cfgValid (s : State) (r : Response) : (s.addResponse r).cfgValid = s.cfgValid := rfl
@[simp] theorem State.addResponse_mode (s : State) (r : Response) : (s.addResponse r).mode = s.mode := rfl
@[simp] theorem State.addResponse_fw (s : State) (r : Response) : (s.addResponse r).fw = s.fw := rfl
@[simp] theorem State.addResponse_cap (s : State) (r : Response) : (s.addResponse r).cap = s.cap := rfl
@[simp] theorem State.addResponse_base (s : State) (r : Response) : (s.addResponse r).base = s.base := rfl
@[simp] theorem State.addResponse_oram (s : State) (r : Response) : (s.addResponse r).oram = s.oram := rfl
@[simp] theorem State.addResponse_xmem (s : State) (r : Response) : (s.addResponse r).xmem = s.xmem := rfl
@[simp] theorem State.addResponse_phase (s : State) (r : Response) : (s.addResponse r).phase = s.phase := rfl
@[simp] theorem State.addResponse_input (s : State) (r : Response) : (s.addResponse r).input = s.input := rfl
@[simp] theorem State.addResponse_rsps (s : State) (r : Response) : (s.addResponse r).rsps = r :: s.rsps := rfl
@[simp] theorem State.addResponse_draws (s : State) (r : Response) : (s.addResponse r).draws = s.draws := rfl

/-! ### zeroFill -/

@[simp] theorem State.zeroFill_params (s : State) (n : Nat) : (s.zeroFill n).params = s.params := rfl
@[simp] theorem State.zeroFill_cfgValid (s : State) (n : Nat) : (s.zeroFill n).cfgValid = s.cfgValid := rfl
@[simp] theorem State.zeroFill_mode (s : State) (n : Nat) : (s.zeroFill n).mode = s.mode := rfl
@[simp] theorem State.zeroFill_fw (s : State) (n : Nat) : (s.zeroFill n).fw = s.fw := rfl
@[simp] theorem State.zeroFill_cap (s : State) (n : Nat) : (s.zeroFill n).cap = s.cap := rfl
@[simp] theorem State.zeroFill_base (s : State) (n : Nat) : (s.zeroFill n).base = s.base := rfl
@[simp] theorem State.zeroFill_oram (s : State) (n : Nat) : (s.zeroFill n).oram = Memory.zeros n := rfl
@[simp] theorem State.zeroFill_xmem (s : State) (n : Nat) : (s.zeroFill n).xmem = s.xmem := rfl
@[simp] theorem State.zeroFill_phase (s : State) (n : Nat) : (s.zeroFill n).phase = s.phase := rfl
@[simp] theorem State.zeroFill_input (s : State) (n : Nat) : (s.zeroFill n).input = s.input := rfl
@[simp] theorem State.zeroFill_rsps (s : State) (n : Nat) : (s.zeroFill n).rsps = s.rsps := rfl
@[simp] theorem State.zeroFill_draws (s : State) (n : Nat) : (s.zeroFill n).draws = s.draws := rfl

/-! ### withInput -/

@[simp] theorem State.withInput_params (s : State) (l : List HostEvent) : (s.withInput l).params = s.params := rfl
@[simp] theorem State.withInput_cfgValid (s : State) (l : List HostEvent) : (s.withInput l).cfgValid = s.cfgValid := rfl
@[simp] theorem State.withInput_mode (s : State) (l : List HostEvent) : (s.withInput l).mode = s.mode := rfl
@[simp] theorem State.withInput_fw (s : State) (l : List HostEvent) : (s.withInput l).fw = s.fw := rfl
@[simp] theorem State.withInput_cap (s : State) (l : List HostEvent) : (s.withInput l).cap = s.cap := rfl
@[simp] theorem State.withInput_base (s : State) (l : List HostEvent) : (s.withInput l).base = s.base := rfl
@[simp] theorem State.withInput_oram (s : State) (l : List HostEvent) : (s.withInput l).oram = s.oram := rfl
@[simp] theorem State.withInput_xmem (s : State) (l : List HostEvent) : (s.withInput l).xmem = s.xmem := rfl
@[simp] theorem State.withInput_phase (s : State) (l : List HostEvent) : (s.withInput l).phase = s.phase := rfl
@[simp] theorem State.withInput_input (s : State) (l : List HostEvent) : (s.withInput l).input = l := rfl
@[simp] theorem State.withInput_rsps (s : State) (l : List HostEvent) : (s.withInput l).rsps = s.rsps := rfl
@[simp] theorem State.withInput_draws (s : State) (l : List HostEvent) : (s.withInput l).draws = s.draws := rfl

/-! ### acceptCommand -/

@[simp] theorem State.acceptCommand_params (s : State) (cw : Nat) : (s.acceptCommand cw).params = s.params := rfl
@[simp] theorem State.acceptCommand_cfgValid (s : State) (cw : Nat) : (s.acceptCommand cw).cfgValid = s.cfgValid := rfl
@[simp] theorem State.acceptCommand_mode (s : State) (cw : Nat) : (s.acceptCommand cw).mode = s.mode := rfl
@[simp] theorem State.acceptCommand_fw (s : State) (cw : Nat) : (s.acceptCommand cw).fw = s.fw := rfl
@[simp] theorem State.acceptCommand_cap (s : State) (cw : Nat) : (s.acceptCommand cw).cap = s.cap := rfl
@[simp] theorem State.acceptCommand_base (s : State) (cw : Nat) : (s.acceptCommand cw).base = s.base := rfl
@[simp] theorem State.acceptCommand_oram (s : State) (cw : Nat) : (s.acceptCommand cw).oram = s.oram := rfl
@[simp] theorem State.acceptCommand_xmem (s : State) (cw : Nat) : (s.acceptCommand cw).xmem = s.xmem := rfl
@[simp] theorem State.acceptCommand_phase (s : State) (cw : Nat) : (s.acceptCommand cw).phase = .busy cw := rfl
@[simp] theorem State.acceptCommand_input (s : State) (cw : Nat) : (s.acceptCommand cw).input = s.input := rfl
@[simp] theorem State.acceptCommand_rsps (s : State) (cw : Nat) : (s.acceptCommand cw).rsps = s.rsps := rfl
@[simp] theorem State.acceptCommand_draws (s : State) (cw : Nat) : (s.acceptCommand cw).draws = s.draws := rfl

/-! ### toIdle -/

@[simp] theorem State.toIdle_params (s : State) : (s.toIdle).params = s.params := rfl
@[simp] theorem State.toIdle_cfgValid (s : State) : (s.toIdle).cfgValid = s.cfgValid := rfl
@[simp] theorem State.toIdle_mode (s : State) : (s.toIdle).mode = s.mode := rfl
@[simp] theorem State.toIdle_fw (s : State) : (s.toIdle).fw = s.fw := rfl
@[simp] theorem State.toIdle_cap (s : State) : (s.toIdle).cap = s.cap := rfl
@[simp] theorem State.toIdle_base (s : State) : (s.toIdle).base = s.base := rfl
@[simp] theorem State.toIdle_oram (s : State) : (s.toIdle).oram = s.oram := rfl
@[simp] theorem State.toIdle_xmem (s : State) : (s.toIdle).xmem = s.xmem := rfl
@[simp] theorem State.toIdle_phase (s : State) : (s.toIdle).phase = .idle := rfl
@[simp] theorem State.toIdle_input (s : State) : (s.toIdle).input = s.input := rfl
@[simp] theorem State.toIdle_rsps (s : State) : (s.toIdle).rsps = s.rsps := rfl
@[simp] theorem State.toIdle_draws (s : State) : (s.toIdle).draws = s.draws := rfl

/-! ### present -/

@[simp] theorem State.present_params (s : State) (cw : Nat) : (s.present cw).params = s.params := rfl
@[simp] theorem State.present_cfgValid (s : State) (cw : Nat) : (s.present cw).cfgValid = s.cfgValid := rfl
@[simp] theorem State.present_mode (s : State) (cw : Nat) : (s.present cw).mode = s.mode := rfl
@[simp] theorem State.present_fw (s : State) (cw : Nat) : (s.present cw).fw = s.fw := rfl
@[simp] theorem State.present_cap (s : State) (cw : Nat) : (s.present cw).cap = s.cap := rfl
@[simp] theorem State.present_base (s : State) (cw : Nat) : (s.present cw).base = s.base := rfl
@[simp] theorem State.present_oram (s : State) (cw : Nat) : (s.present cw).oram = s.oram := rfl
@[simp] theorem State.present_xmem (s : State) (cw : Nat) : (s.present cw).xmem = s.xmem := rfl
@[simp] theorem State.present_phase (s : State) (cw : Nat) : (s.present cw).phase = .idle := rfl
@[simp] theorem State.present_input (s : State) (cw : Nat) : (s.present cw).input = .command cw :: s.input := rfl
@[simp] theorem State.present_rsps (s : State) (cw : Nat) : (s.present cw).rsps = s.rsps := rfl
@[simp] theorem State.present_draws (s : State) (cw : Nat) : (s.present cw).draws = s.draws := rfl

/-! ### install -/

@[simp] theorem State.install_params (s : State) (m : Mode) (w c b : Nat) : (s.install m w c b).params = s.params := by simp [State.install]
@[simp] theorem State.install_cfgValid (s : State) (m : Mode) (w c b : Nat) : (s.install m w c b).cfgValid = true := rfl
@[simp] theorem State.install_mode (s : State) (m : Mode) (w c b : Nat) : (s.install m w c b).mode = m := rfl
@[simp] theorem State.install_fw (s : State) (m : Mode) (w c b : Nat) : (s.install m w c b).fw = w := rfl
@[simp] theorem State.install_cap (s : State) (m : Mode) (w c b : Nat) : (s.install m w c b).cap = c := rfl
@[simp] theorem State.install_base (s : State) (m : Mode) (w c b : Nat) : (s.install m w c b).base = b := rfl
@[simp] theorem State.install_oram (s : State) (m : Mode) (w c b : Nat) : (s.install m w c b).oram = s.forgetOwned.oram := rfl
@[simp] theorem State.install_xmem (s : State) (m : Mode) (w c b : Nat) : (s.install m w c b).xmem = s.xmem := by simp [State.install]
@[simp] theorem State.install_phase (s : State) (m : Mode) (w c b : Nat) : (s.install m w c b).phase = s.phase := by simp [State.install]
@[simp] theorem State.install_input (s : State) (m : Mode) (w c b : Nat) : (s.install m w c b).input = s.input := by simp [State.install]
@[simp] theorem State.install_rsps (s : State) (m : Mode) (w c b : Nat) : (s.install m w c b).rsps = s.rsps := by simp [State.install]
@[simp] theorem State.install_draws (s : State) (m : Mode) (w c b : Nat) : (s.install m w c b).draws = s.forgetOwned.draws := rfl

/-! ### retire -/

@[simp] theorem State.retire_params (s : State) : (s.retire).params = s.params := by simp [State.retire]
@[simp] theorem State.retire_cfgValid (s : State) : (s.retire).cfgValid = false := rfl
@[simp] theorem State.retire_mode (s : State) : (s.retire).mode = s.mode := by simp [State.retire]
@[simp] theorem State.retire_fw (s : State) : (s.retire).fw = s.fw := by simp [State.retire]
@[simp] theorem State.retire_cap (s : State) : (s.retire).cap = s.cap := by simp [State.retire]
@[simp] theorem State.retire_base (s : State) : (s.retire).base = s.base := by simp [State.retire]
@[simp] theorem State.retire_oram (s : State) : (s.retire).oram = s.forgetOwned.oram := rfl
@[simp] theorem State.retire_xmem (s : State) : (s.retire).xmem = s.xmem := by simp [State.retire]
@[simp] theorem State.retire_phase (s : State) : (s.retire).phase = s.phase := by simp [State.retire]
@[simp] theorem State.retire_input (s : State) : (s.retire).input = s.input := by simp [State.retire]
@[simp] theorem State.retire_rsps (s : State) : (s.retire).rsps = s.rsps := by simp [State.retire]
@[simp] theorem State.retire_draws (s : State) : (s.retire).draws = s.forgetOwned.draws := rfl

/-! ### resetBlock -/

@[simp] theorem State.resetBlock_params (s : State) : (s.resetBlock).params = s.params := rfl
@[simp] theorem State.resetBlock_cfgValid (s : State) : (s.resetBlock).cfgValid = false := rfl
@[simp] theorem State.resetBlock_mode (s : State) : (s.resetBlock).mode = .owned := rfl
@[simp] theorem State.resetBlock_fw (s : State) : (s.resetBlock).fw = 0 := rfl
@[simp] theorem State.resetBlock_cap (s : State) : (s.resetBlock).cap = 0 := rfl
@[simp] theorem State.resetBlock_base (s : State) : (s.resetBlock).base = 0 := rfl
@[simp] theorem State.resetBlock_oram (s : State) : (s.resetBlock).oram = [] := rfl
@[simp] theorem State.resetBlock_xmem (s : State) : (s.resetBlock).xmem = s.xmem := rfl
@[simp] theorem State.resetBlock_phase (s : State) : (s.resetBlock).phase = .idle := rfl
@[simp] theorem State.resetBlock_input (s : State) : (s.resetBlock).input = s.input := rfl
@[simp] theorem State.resetBlock_rsps (s : State) : (s.resetBlock).rsps = s.rsps := rfl
@[simp] theorem State.resetBlock_draws (s : State) : (s.resetBlock).draws = s.draws + 1 := rfl

/-! ### abandon -/

@[simp] theorem State.abandon_params (s : State) (i : Instr) : (s.abandon i).params = s.params := rfl
@[simp] theorem State.abandon_cfgValid (s : State) (i : Instr) : (s.abandon i).cfgValid = false := rfl
@[simp] theorem State.abandon_mode (s : State) (i : Instr) : (s.abandon i).mode = .owned := rfl
@[simp] theorem State.abandon_fw (s : State) (i : Instr) : (s.abandon i).fw = 0 := rfl
@[simp] theorem State.abandon_cap (s : State) (i : Instr) : (s.abandon i).cap = 0 := rfl
@[simp] theorem State.abandon_base (s : State) (i : Instr) : (s.abandon i).base = 0 := rfl
@[simp] theorem State.abandon_oram (s : State) (i : Instr) : (s.abandon i).oram = [] := rfl
@[simp] theorem State.abandon_xmem (s : State) (i : Instr) : (s.abandon i).xmem = abandonedXmem s.draws (xmWrites i s) s.xmem := rfl
@[simp] theorem State.abandon_phase (s : State) (i : Instr) : (s.abandon i).phase = .idle := rfl
@[simp] theorem State.abandon_input (s : State) (i : Instr) : (s.abandon i).input = s.input := rfl
@[simp] theorem State.abandon_rsps (s : State) (i : Instr) : (s.abandon i).rsps = s.rsps := rfl
@[simp] theorem State.abandon_draws (s : State) (i : Instr) : (s.abandon i).draws = s.draws + 1 := rfl

/-! ### setXmemWord -/

@[simp] theorem State.setXmemWord_params (s : State) (a : Nat) (v : Nat) : (s.setXmemWord a v).params = s.params := rfl
@[simp] theorem State.setXmemWord_cfgValid (s : State) (a : Nat) (v : Nat) : (s.setXmemWord a v).cfgValid = s.cfgValid := rfl
@[simp] theorem State.setXmemWord_mode (s : State) (a : Nat) (v : Nat) : (s.setXmemWord a v).mode = s.mode := rfl
@[simp] theorem State.setXmemWord_fw (s : State) (a : Nat) (v : Nat) : (s.setXmemWord a v).fw = s.fw := rfl
@[simp] theorem State.setXmemWord_cap (s : State) (a : Nat) (v : Nat) : (s.setXmemWord a v).cap = s.cap := rfl
@[simp] theorem State.setXmemWord_base (s : State) (a : Nat) (v : Nat) : (s.setXmemWord a v).base = s.base := rfl
@[simp] theorem State.setXmemWord_oram (s : State) (a : Nat) (v : Nat) : (s.setXmemWord a v).oram = s.oram := rfl
@[simp] theorem State.setXmemWord_xmem (s : State) (a : Nat) (v : Nat) : (s.setXmemWord a v).xmem = Memory.setWord s.xmem a v := rfl
@[simp] theorem State.setXmemWord_phase (s : State) (a : Nat) (v : Nat) : (s.setXmemWord a v).phase = s.phase := rfl
@[simp] theorem State.setXmemWord_input (s : State) (a : Nat) (v : Nat) : (s.setXmemWord a v).input = s.input := rfl
@[simp] theorem State.setXmemWord_rsps (s : State) (a : Nat) (v : Nat) : (s.setXmemWord a v).rsps = s.rsps := rfl
@[simp] theorem State.setXmemWord_draws (s : State) (a : Nat) (v : Nat) : (s.setXmemWord a v).draws = s.draws := rfl

/-! ### setOramWord -/

@[simp] theorem State.setOramWord_params (s : State) (k : Nat) (v : Nat) : (s.setOramWord k v).params = s.params := rfl
@[simp] theorem State.setOramWord_cfgValid (s : State) (k : Nat) (v : Nat) : (s.setOramWord k v).cfgValid = s.cfgValid := rfl
@[simp] theorem State.setOramWord_mode (s : State) (k : Nat) (v : Nat) : (s.setOramWord k v).mode = s.mode := rfl
@[simp] theorem State.setOramWord_fw (s : State) (k : Nat) (v : Nat) : (s.setOramWord k v).fw = s.fw := rfl
@[simp] theorem State.setOramWord_cap (s : State) (k : Nat) (v : Nat) : (s.setOramWord k v).cap = s.cap := rfl
@[simp] theorem State.setOramWord_base (s : State) (k : Nat) (v : Nat) : (s.setOramWord k v).base = s.base := rfl
@[simp] theorem State.setOramWord_oram (s : State) (k : Nat) (v : Nat) : (s.setOramWord k v).oram = Memory.write none s.oram k v := rfl
@[simp] theorem State.setOramWord_xmem (s : State) (k : Nat) (v : Nat) : (s.setOramWord k v).xmem = s.xmem := rfl
@[simp] theorem State.setOramWord_phase (s : State) (k : Nat) (v : Nat) : (s.setOramWord k v).phase = s.phase := rfl
@[simp] theorem State.setOramWord_input (s : State) (k : Nat) (v : Nat) : (s.setOramWord k v).input = s.input := rfl
@[simp] theorem State.setOramWord_rsps (s : State) (k : Nat) (v : Nat) : (s.setOramWord k v).rsps = s.rsps := rfl
@[simp] theorem State.setOramWord_draws (s : State) (k : Nat) (v : Nat) : (s.setOramWord k v).draws = s.draws := rfl

/-! ### setStorageWord, setStorageWords, insertField, fillTable -/

@[simp] theorem State.setStorageWord_params (s : State) (k : Nat) (v : Nat) : (s.setStorageWord k v).params = s.params := by unfold State.setStorageWord; split <;> rfl
@[simp] theorem State.setStorageWord_cfgValid (s : State) (k : Nat) (v : Nat) : (s.setStorageWord k v).cfgValid = s.cfgValid := by unfold State.setStorageWord; split <;> rfl
@[simp] theorem State.setStorageWord_mode (s : State) (k : Nat) (v : Nat) : (s.setStorageWord k v).mode = s.mode := by unfold State.setStorageWord; split <;> rfl
@[simp] theorem State.setStorageWord_fw (s : State) (k : Nat) (v : Nat) : (s.setStorageWord k v).fw = s.fw := by unfold State.setStorageWord; split <;> rfl
@[simp] theorem State.setStorageWord_cap (s : State) (k : Nat) (v : Nat) : (s.setStorageWord k v).cap = s.cap := by unfold State.setStorageWord; split <;> rfl
@[simp] theorem State.setStorageWord_base (s : State) (k : Nat) (v : Nat) : (s.setStorageWord k v).base = s.base := by unfold State.setStorageWord; split <;> rfl
@[simp] theorem State.setStorageWord_phase (s : State) (k : Nat) (v : Nat) : (s.setStorageWord k v).phase = s.phase := by unfold State.setStorageWord; split <;> rfl
@[simp] theorem State.setStorageWord_input (s : State) (k : Nat) (v : Nat) : (s.setStorageWord k v).input = s.input := by unfold State.setStorageWord; split <;> rfl
@[simp] theorem State.setStorageWord_rsps (s : State) (k : Nat) (v : Nat) : (s.setStorageWord k v).rsps = s.rsps := by unfold State.setStorageWord; split <;> rfl
@[simp] theorem State.setStorageWord_draws (s : State) (k : Nat) (v : Nat) : (s.setStorageWord k v).draws = s.draws := by unfold State.setStorageWord; split <;> rfl

theorem State.setStorageWord_oram (s : State) (k : Nat) (v : Nat) :
    (s.setStorageWord k v).oram = if s.mode = .owned then Memory.write none s.oram k v else s.oram := by
  unfold State.setStorageWord; cases h : s.mode <;> simp

theorem State.setStorageWord_xmem (s : State) (k : Nat) (v : Nat) :
    (s.setStorageWord k v).xmem = if s.mode = .owned then s.xmem else Memory.setWord s.xmem (s.base + k) v := by
  unfold State.setStorageWord; cases h : s.mode <;> simp

@[simp] theorem State.setStorageWords_params (s : State) (ws : List (Nat × Nat)) : (s.setStorageWords ws).params = s.params := by
  unfold State.setStorageWords
  induction ws generalizing s with
  | nil => rfl
  | cons w ws ih => simp [List.foldl_cons, ih]
@[simp] theorem State.setStorageWords_cfgValid (s : State) (ws : List (Nat × Nat)) : (s.setStorageWords ws).cfgValid = s.cfgValid := by
  unfold State.setStorageWords
  induction ws generalizing s with
  | nil => rfl
  | cons w ws ih => simp [List.foldl_cons, ih]
@[simp] theorem State.setStorageWords_mode (s : State) (ws : List (Nat × Nat)) : (s.setStorageWords ws).mode = s.mode := by
  unfold State.setStorageWords
  induction ws generalizing s with
  | nil => rfl
  | cons w ws ih => simp [List.foldl_cons, ih]
@[simp] theorem State.setStorageWords_fw (s : State) (ws : List (Nat × Nat)) : (s.setStorageWords ws).fw = s.fw := by
  unfold State.setStorageWords
  induction ws generalizing s with
  | nil => rfl
  | cons w ws ih => simp [List.foldl_cons, ih]
@[simp] theorem State.setStorageWords_cap (s : State) (ws : List (Nat × Nat)) : (s.setStorageWords ws).cap = s.cap := by
  unfold State.setStorageWords
  induction ws generalizing s with
  | nil => rfl
  | cons w ws ih => simp [List.foldl_cons, ih]
@[simp] theorem State.setStorageWords_base (s : State) (ws : List (Nat × Nat)) : (s.setStorageWords ws).base = s.base := by
  unfold State.setStorageWords
  induction ws generalizing s with
  | nil => rfl
  | cons w ws ih => simp [List.foldl_cons, ih]
@[simp] theorem State.setStorageWords_phase (s : State) (ws : List (Nat × Nat)) : (s.setStorageWords ws).phase = s.phase := by
  unfold State.setStorageWords
  induction ws generalizing s with
  | nil => rfl
  | cons w ws ih => simp [List.foldl_cons, ih]
@[simp] theorem State.setStorageWords_input (s : State) (ws : List (Nat × Nat)) : (s.setStorageWords ws).input = s.input := by
  unfold State.setStorageWords
  induction ws generalizing s with
  | nil => rfl
  | cons w ws ih => simp [List.foldl_cons, ih]
@[simp] theorem State.setStorageWords_rsps (s : State) (ws : List (Nat × Nat)) : (s.setStorageWords ws).rsps = s.rsps := by
  unfold State.setStorageWords
  induction ws generalizing s with
  | nil => rfl
  | cons w ws ih => simp [List.foldl_cons, ih]
@[simp] theorem State.setStorageWords_draws (s : State) (ws : List (Nat × Nat)) : (s.setStorageWords ws).draws = s.draws := by
  unfold State.setStorageWords
  induction ws generalizing s with
  | nil => rfl
  | cons w ws ih => simp [List.foldl_cons, ih]

@[simp] theorem State.insertField_params (s : State) (i v : Nat) : (s.insertField i v).params = s.params := by simp [State.insertField]
@[simp] theorem State.insertField_cfgValid (s : State) (i v : Nat) : (s.insertField i v).cfgValid = s.cfgValid := by simp [State.insertField]
@[simp] theorem State.insertField_mode (s : State) (i v : Nat) : (s.insertField i v).mode = s.mode := by simp [State.insertField]
@[simp] theorem State.insertField_fw (s : State) (i v : Nat) : (s.insertField i v).fw = s.fw := by simp [State.insertField]
@[simp] theorem State.insertField_cap (s : State) (i v : Nat) : (s.insertField i v).cap = s.cap := by simp [State.insertField]
@[simp] theorem State.insertField_base (s : State) (i v : Nat) : (s.insertField i v).base = s.base := by simp [State.insertField]
@[simp] theorem State.insertField_phase (s : State) (i v : Nat) : (s.insertField i v).phase = s.phase := by simp [State.insertField]
@[simp] theorem State.insertField_input (s : State) (i v : Nat) : (s.insertField i v).input = s.input := by simp [State.insertField]
@[simp] theorem State.insertField_rsps (s : State) (i v : Nat) : (s.insertField i v).rsps = s.rsps := by simp [State.insertField]
@[simp] theorem State.insertField_draws (s : State) (i v : Nat) : (s.insertField i v).draws = s.draws := by simp [State.insertField]

@[simp] theorem State.fillTable_params (s : State) (n : Nat) : (s.fillTable n).params = s.params := by
  induction n with
  | zero => rfl
  | succ n ih => simp [State.fillTable, ih]
@[simp] theorem State.fillTable_cfgValid (s : State) (n : Nat) : (s.fillTable n).cfgValid = s.cfgValid := by
  induction n with
  | zero => rfl
  | succ n ih => simp [State.fillTable, ih]
@[simp] theorem State.fillTable_mode (s : State) (n : Nat) : (s.fillTable n).mode = s.mode := by
  induction n with
  | zero => rfl
  | succ n ih => simp [State.fillTable, ih]
@[simp] theorem State.fillTable_fw (s : State) (n : Nat) : (s.fillTable n).fw = s.fw := by
  induction n with
  | zero => rfl
  | succ n ih => simp [State.fillTable, ih]
@[simp] theorem State.fillTable_cap (s : State) (n : Nat) : (s.fillTable n).cap = s.cap := by
  induction n with
  | zero => rfl
  | succ n ih => simp [State.fillTable, ih]
@[simp] theorem State.fillTable_base (s : State) (n : Nat) : (s.fillTable n).base = s.base := by
  induction n with
  | zero => rfl
  | succ n ih => simp [State.fillTable, ih]
@[simp] theorem State.fillTable_phase (s : State) (n : Nat) : (s.fillTable n).phase = s.phase := by
  induction n with
  | zero => rfl
  | succ n ih => simp [State.fillTable, ih]
@[simp] theorem State.fillTable_input (s : State) (n : Nat) : (s.fillTable n).input = s.input := by
  induction n with
  | zero => rfl
  | succ n ih => simp [State.fillTable, ih]
@[simp] theorem State.fillTable_rsps (s : State) (n : Nat) : (s.fillTable n).rsps = s.rsps := by
  induction n with
  | zero => rfl
  | succ n ih => simp [State.fillTable, ih]
@[simp] theorem State.fillTable_draws (s : State) (n : Nat) : (s.fillTable n).draws = s.draws := by
  induction n with
  | zero => rfl
  | succ n ih => simp [State.fillTable, ih]

/-! ### NW, a function of the registers (10_state.md R29) -/

@[simp] theorem State.addResponse_nw (s : State) (r : Response) : (s.addResponse r).nw = s.nw := rfl
@[simp] theorem State.zeroFill_nw (s : State) (n : Nat) : (s.zeroFill n).nw = s.nw := rfl
@[simp] theorem State.withInput_nw (s : State) (l : List HostEvent) : (s.withInput l).nw = s.nw := rfl
@[simp] theorem State.acceptCommand_nw (s : State) (cw : Nat) : (s.acceptCommand cw).nw = s.nw := rfl
@[simp] theorem State.toIdle_nw (s : State) : s.toIdle.nw = s.nw := rfl
@[simp] theorem State.setXmemWord_nw (s : State) (a : Nat) (v : Nat) : (s.setXmemWord a v).nw = s.nw := rfl
@[simp] theorem State.retire_nw (s : State) : s.retire.nw = s.nw := by simp [State.nw]
@[simp] theorem State.install_nw (s : State) (m : Mode) (w c b : Nat) : (s.install m w c b).nw = wordCount s.params.wb w c := by
  simp [State.nw]
@[simp] theorem State.insertField_nw (s : State) (i v : Nat) : (s.insertField i v).nw = s.nw := by simp [State.nw]
@[simp] theorem State.fillTable_nw (s : State) (n : Nat) : (s.fillTable n).nw = s.nw := by simp [State.nw]

end Sys2Proof.Machine
end

