-- ==== Sys2Proof/Laws/Exec.lean ====
section
/-! SUPPORT. Everything each command, each check and one step can do, said once; later proofs cite these and unfold nothing. -/

namespace Sys2Proof.Machine

@[simp] theorem respond_eq (st : Status) (d : Nat) (s : State) : respond st d s = .next (s.addResponse ⟨st, d⟩) := rfl

@[simp] theorem failWith_eq (st : Status) (s : State) : failWith st s = .next (s.addResponse ⟨st, 0⟩) := rfl

theorem next_injective {s t : State} (h : (Host.Outcome.next s : Host.Outcome State Fault Refusal) = .next t) : s = t := by
  cases h; rfl

/-! ### The checks (60_exceptions.md R171, R172) -/

theorem validWidth_iff {wb w : Nat} : validWidth wb w = true ↔ 1 ≤ w ∧ w ≤ wb := by simp [validWidth]

theorem baseFits_iff {p : Params} {b n : Nat} : baseFits p b n = true ↔ b < 2 ^ p.xaddrBits ∧ b + n ≤ 2 ^ p.xaddrBits := by
  simp [baseFits]

theorem cfgoStatus_ok_iff {p : Params} {w c : Nat} :
    cfgoStatus p w c = .ok ↔ (1 ≤ w ∧ w ≤ p.wb) ∧ wordCount p.wb w c ≤ p.ownedWords := by
  unfold cfgoStatus
  by_cases hw : validWidth p.wb w = true
  · simp [hw, validWidth_iff.1 hw]
  · have := mt validWidth_iff.2 hw; simp [hw, this]

theorem cfgbStatus_ok_iff {p : Params} {w c b : Nat} :
    cfgbStatus p w c b = .ok ↔
      (1 ≤ w ∧ w ≤ p.wb) ∧ b < 2 ^ p.xaddrBits ∧ b + wordCount p.wb w c ≤ 2 ^ p.xaddrBits := by
  unfold cfgbStatus
  by_cases hw : validWidth p.wb w = true
  · by_cases hb : baseFits p b (wordCount p.wb w c) = true
    · simp [hw, validWidth_iff.1 hw, hb, baseFits_iff.1 hb]
    · have := mt baseFits_iff.2 hb; simp [hw, hb, this]
  · have := mt validWidth_iff.2 hw; simp [hw, this]

theorem accessStatus_ok_iff {s : State} {i : Nat} : accessStatus s i = .ok ↔ s.cfgValid = true ∧ i < s.cap := by
  unfold accessStatus
  cases s.cfgValid <;> simp

theorem accessStatus_noCfg {s : State} (i : Nat) (h : s.cfgValid = false) : accessStatus s i = .noCfg := by
  simp [accessStatus, h]

theorem accessStatus_range {s : State} {i : Nat} (h : s.cfgValid = true) (hi : s.cap ≤ i) : accessStatus s i = .range := by
  simp [accessStatus, h, hi]

theorem rankStatus_ok_iff {p : Params} {x : Nat} : rankStatus p x = .ok ↔ x < 2 ^ p.pw := by
  unfold rankStatus; split_ifs with h <;> simp <;> omega

theorem pctfillStatus_ok_iff {p : Params} {w b : Nat} :
    pctfillStatus p w b = .ok ↔
      (1 ≤ w ∧ w ≤ pctWMax p) ∧ b < 2 ^ p.xaddrBits ∧ b + wordCount p.wb w (2 ^ w) ≤ 2 ^ p.xaddrBits := by
  unfold pctfillStatus
  by_cases hw : (decide (w < 1) || decide (pctWMax p < w)) = true
  · have : ¬(1 ≤ w ∧ w ≤ pctWMax p) := by simp at hw; omega
    rw [if_pos hw]; simp [this]
  · have hw' : 1 ≤ w ∧ w ≤ pctWMax p := by simp at hw; omega
    by_cases hb : baseFits p b (wordCount p.wb w (2 ^ w)) = true
    · rw [if_neg hw]; simp [hw', hb, baseFits_iff.1 hb]
    · have := mt baseFits_iff.2 hb; rw [if_neg hw]; simp [hb, this]

/-! ### The commands: what a next state can be -/

/-- CFGO either makes an owned structure live or fails without an effect. -/
theorem execCfgo_cases {w c : Nat} {s t : State} (h : execCfgo w c s = .next t) :
    (cfgoStatus s.params w c = .ok ∧
      t = ((s.install .owned w c s.base).zeroFill (wordCount s.params.wb w c)).addResponse ⟨.ok, 0⟩) ∨
    (cfgoStatus s.params w c ≠ .ok ∧ t = s.addResponse ⟨cfgoStatus s.params w c, 0⟩) := by
  unfold execCfgo at h
  split_ifs at h with hs
  · exact .inl ⟨hs, (next_injective h).symm⟩
  · exact .inr ⟨hs, (next_injective h).symm⟩

/-- CFGB either makes a borrowed structure live or fails without an effect. -/
theorem execCfgb_cases {w c b : Nat} {s t : State} (h : execCfgb w c b s = .next t) :
    (cfgbStatus s.params w c b = .ok ∧ t = (s.install .borrowed w c b).addResponse ⟨.ok, 0⟩) ∨
    (cfgbStatus s.params w c b ≠ .ok ∧ t = s.addResponse ⟨cfgbStatus s.params w c b, 0⟩) := by
  unfold execCfgb at h
  split_ifs at h with hs
  · exact .inl ⟨hs, (next_injective h).symm⟩
  · exact .inr ⟨hs, (next_injective h).symm⟩

/-- GET responds the field, or fails without an effect. -/
theorem execGet_cases {i : Nat} {s t : State} (h : execGet i s = .next t) :
    (accessStatus s i = .ok ∧ spanFault s i = none ∧ t = s.addResponse ⟨.ok, readField s i⟩) ∨
    (accessStatus s i ≠ .ok ∧ t = s.addResponse ⟨accessStatus s i, 0⟩) := by
  unfold execGet at h
  split_ifs at h with hs
  · cases hf : spanFault s i with
    | some f => rw [hf] at h; cases h
    | none => rw [hf] at h; exact .inl ⟨hs, rfl, (next_injective h).symm⟩
  · exact .inr ⟨hs, (next_injective h).symm⟩

/-- WRITE inserts the truncated value, or fails without an effect. -/
theorem execWrite_cases {i v : Nat} {s t : State} (h : execWrite i v s = .next t) :
    (accessStatus s i = .ok ∧ spanFault s i = none ∧ t = (s.insertField i (trunc s.fw v)).addResponse ⟨.ok, 0⟩) ∨
    (accessStatus s i ≠ .ok ∧ t = s.addResponse ⟨accessStatus s i, 0⟩) := by
  unfold execWrite at h
  split_ifs at h with hs
  · cases hf : spanFault s i with
    | some f => rw [hf] at h; cases h
    | none => rw [hf] at h; exact .inl ⟨hs, rfl, (next_injective h).symm⟩
  · exact .inr ⟨hs, (next_injective h).symm⟩

/-- RANK responds the ROM's field, or fails without an effect. -/
theorem execRank_cases {x : Nat} {s t : State} (h : execRank x s = .next t) :
    (rankStatus s.params x = .ok ∧
      t = s.addResponse ⟨.ok, extractField s.params.wb s.params.pw x (promWord s.params)⟩) ∨
    (rankStatus s.params x ≠ .ok ∧ t = s.addResponse ⟨rankStatus s.params x, 0⟩) := by
  unfold execRank at h
  split_ifs at h with hs
  · exact .inl ⟨hs, (next_injective h).symm⟩
  · exact .inr ⟨hs, (next_injective h).symm⟩

/-- PCTFILL makes a borrowed structure live and fills it, or fails without an effect. -/
theorem execPctfill_cases {w b : Nat} {s t : State} (h : execPctfill w b s = .next t) :
    (pctfillStatus s.params w b = .ok ∧
      t = ((s.install .borrowed w (2 ^ w) b).fillTable (2 ^ w)).addResponse ⟨.ok, 0⟩) ∨
    (pctfillStatus s.params w b ≠ .ok ∧ t = s.addResponse ⟨pctfillStatus s.params w b, 0⟩) := by
  unfold execPctfill at h
  split_ifs at h with hs
  · exact .inl ⟨hs, (next_injective h).symm⟩
  · exact .inr ⟨hs, (next_injective h).symm⟩

/-- A span's access faults only at a word the buffer's space does not have. -/
theorem spanFault_eq_none_iff {s : State} {i : Nat} :
    spanFault s i = none ↔ ∀ k ∈ spanWords s.params.wb s.fw i, storageFault s k = none := by
  unfold spanFault
  rw [List.findSome?_eq_none_iff]

/-! ### One step -/

@[simp] theorem hostWrite_next {a : Nat} {v : Nat} {s : State} (h : a < 2 ^ s.params.xaddrBits) :
    hostWrite a v s = .next (s.setXmemWord a v) := by
  unfold hostWrite; rw [if_pos h]

/-- Everything one step can do when it goes on. -/
theorem step_cases {s t : State} (h : step s = .next t) :
    (s.phase = .idle ∧ s.input = [] ∧ t = s) ∨
    (∃ cw rest, s.phase = .idle ∧ s.input = .command cw :: rest ∧ exec (decode s.params cw) (s.withInput rest) = .next t) ∨
    (∃ cw rest, s.phase = .idle ∧ s.input = .accept cw :: rest ∧ t = (s.withInput rest).acceptCommand cw) ∨
    (∃ a v rest, s.phase = .idle ∧ s.input = .write a v :: rest ∧ hostWrite a v (s.withInput rest) = .next t) ∨
    (∃ rest, s.phase = .idle ∧ s.input = .reset :: rest ∧ t = (s.withInput rest).resetBlock) ∨
    (∃ cw rest, s.phase = .busy cw ∧ s.input = .reset :: rest ∧ t = (s.withInput rest).abandon (decode s.params cw)) ∨
    (∃ cw, s.phase = .busy cw ∧ s.input.head? ≠ some .reset ∧ exec (decode s.params cw) s.toIdle = .next t) := by
  unfold step at h
  split at h <;> rename_i hp hi
  · exact .inl ⟨hp, hi, (next_injective h).symm⟩
  · exact .inr (.inl ⟨_, _, hp, hi, h⟩)
  · exact .inr (.inr (.inl ⟨_, _, hp, hi, (next_injective h).symm⟩))
  · exact .inr (.inr (.inr (.inl ⟨_, _, _, hp, hi, h⟩)))
  · exact .inr (.inr (.inr (.inr (.inl ⟨_, hp, hi, (next_injective h).symm⟩))))
  · exact .inr (.inr (.inr (.inr (.inr (.inl ⟨_, _, hp, hi, (next_injective h).symm⟩)))))
  · rename_i hne
    refine .inr (.inr (.inr (.inr (.inr (.inr ⟨_, hp, ?_, h⟩)))))
    intro hh
    cases hin : s.input with
    | nil => simp [hin] at hh
    | cons e rest =>
      rw [hin] at hh
      simp only [List.head?_cons, Option.some.injEq] at hh
      subst hh
      exact hi rest hin

end Sys2Proof.Machine
end

