-- ==== Sys2Proof/Laws/Memory.lean ====
section
/-! SUPPORT. The laws of word memories: a read after a write, that every operation keeps the canonical form, and that memories in
canonical form that read alike are equal data. -/

namespace Sys2Proof.Machine

/-! ### Lookup -/

@[simp] theorem Memory.lookup_nil (a : Nat) : Memory.lookup [] a = none := rfl

@[simp] theorem Memory.lookup_cons (c : Nat × Nat) (m : Memory) (a : Nat) :
    Memory.lookup (c :: m) a = if a = c.1 then some c.2 else Memory.lookup m a := rfl

theorem Memory.lookup_eq_none_of_lt {m : Memory} {a : Nat} (h : ∀ c ∈ m, a < c.1) : Memory.lookup m a = none := by
  induction m with
  | nil => rfl
  | cons c m ih =>
    have hc := h c (by simp)
    rw [Memory.lookup_cons, if_neg (by omega), ih fun d hd => h d (List.mem_cons_of_mem _ hd)]

theorem Memory.mem_of_lookup {m : Memory} {a : Nat} {v : Nat} (h : Memory.lookup m a = some v) : (a, v) ∈ m := by
  induction m with
  | nil => simp at h
  | cons c m ih =>
    rw [Memory.lookup_cons] at h
    by_cases hc : a = c.1
    · simp only [hc, if_true, Option.some.injEq] at h
      subst h; subst hc; exact List.mem_cons_self ..
    · rw [if_neg hc] at h; exact List.mem_cons_of_mem _ (ih h)

theorem Memory.lookup_of_mem {m : Memory} (hs : m.Pairwise (fun c d => c.1 < d.1)) {c : Nat × Nat} (h : c ∈ m) :
    Memory.lookup m c.1 = some c.2 := by
  induction m with
  | nil => simp at h
  | cons d m ih =>
    obtain ⟨hd, hm⟩ := List.pairwise_cons.1 hs
    rcases List.mem_cons.1 h with rfl | h
    · simp
    · rw [Memory.lookup_cons, if_neg (by have := hd c h; omega), ih hm h]

theorem Memory.lookup_isSome_iff {m : Memory} {a : Nat} : (Memory.lookup m a).isSome ↔ a ∈ m.map Prod.fst := by
  induction m with
  | nil => simp
  | cons c m ih => rw [Memory.lookup_cons]; by_cases h : a = c.1 <;> simp [h, ih]

/-! ### Put, erase, write -/

@[simp] theorem Memory.lookup_put (m : Memory) (a : Nat) (v : Nat) (b : Nat) :
    Memory.lookup (Memory.put m a v) b = if b = a then some v else Memory.lookup m b := by
  induction m with
  | nil => rfl
  | cons c m ih =>
    unfold Memory.put
    split_ifs with h1 h2 <;> simp only [Memory.lookup_cons, ih] <;> split_ifs <;> first | rfl | omega

@[simp] theorem Memory.lookup_erase (m : Memory) (a b : Nat) :
    Memory.lookup (Memory.erase m a) b = if b = a then none else Memory.lookup m b := by
  unfold Memory.erase
  induction m with
  | nil => simp
  | cons c m ih =>
    by_cases h : c.1 = a
    · rw [List.filter_cons_of_neg (by simp [h]), ih, Memory.lookup_cons]
      split_ifs <;> first | rfl | omega
    · rw [List.filter_cons_of_pos (by simp [h]), Memory.lookup_cons, Memory.lookup_cons, ih]
      split_ifs <;> first | rfl | omega

/-- A read after a write, in a memory with blank reading `u`: the value written where it was written, and every other word as
before. -/
theorem Memory.lookup_write_getD (u : Nat) (m : Memory) (a : Nat) (v : Nat) (b : Nat) :
    (Memory.lookup (Memory.write (some u) m a v) b).getD u = if b = a then v else (Memory.lookup m b).getD u := by
  unfold Memory.write
  by_cases h : u = v
  · subst h; simp only [if_true, Memory.lookup_erase]; split_ifs <;> rfl
  · simp only [Option.some.injEq, h, if_false, Memory.lookup_put]; split_ifs <;> rfl

@[simp] theorem Memory.word_setWord (m : Memory) (a : Nat) (v : Nat) (b : Nat) :
    Memory.word (Memory.setWord m a v) b = if b = a then v else Memory.word m b := Memory.lookup_write_getD 0 m a v b

@[simp] theorem Memory.word_nil (a : Nat) : Memory.word [] a = 0 := rfl

@[simp] theorem Memory.lookup_write_none (m : Memory) (a : Nat) (v : Nat) (b : Nat) :
    Memory.lookup (Memory.write none m a v) b = if b = a then some v else Memory.lookup m b := by
  simp [Memory.write]

/-! ### The canonical form -/

theorem Memory.mem_put {m : Memory} {a : Nat} {v : Nat} {c : Nat × Nat} (h : c ∈ Memory.put m a v) : c = (a, v) ∨ c ∈ m := by
  induction m with
  | nil => simpa [Memory.put] using h
  | cons d m ih =>
    unfold Memory.put at h
    split_ifs at h with h1 h2
    · simpa using h
    · rcases List.mem_cons.1 h with h | h
      · exact .inl h
      · exact .inr (List.mem_cons_of_mem _ h)
    · rcases List.mem_cons.1 h with h | h
      · exact .inr (h ▸ List.mem_cons_self ..)
      · exact (ih h).imp_right (List.mem_cons_of_mem _)

theorem Memory.put_sorted {m : Memory} (hs : m.Pairwise (fun c d => c.1 < d.1)) (a : Nat) (v : Nat) :
    (Memory.put m a v).Pairwise (fun c d => c.1 < d.1) := by
  induction m with
  | nil => simp [Memory.put]
  | cons d m ih =>
    obtain ⟨hd, hm⟩ := List.pairwise_cons.1 hs
    unfold Memory.put
    split_ifs with h1 h2
    · refine List.pairwise_cons.2 ⟨fun c hc => ?_, hs⟩
      rcases List.mem_cons.1 hc with rfl | hc
      · exact h1
      · exact Nat.lt_trans h1 (hd c hc)
    · exact List.pairwise_cons.2 ⟨fun c hc => by have := hd c hc; omega, hm⟩
    · refine List.pairwise_cons.2 ⟨fun c hc => ?_, ih hm⟩
      rcases Memory.mem_put hc with rfl | hc
      · show d.1 < a; omega
      · exact hd c hc

theorem Memory.put_addresses {m : Memory} (hs : m.Pairwise (fun c d => c.1 < d.1)) {a : Nat} (h : a ∈ m.map Prod.fst) (v : Nat) :
    (Memory.put m a v).map Prod.fst = m.map Prod.fst := by
  induction m with
  | nil => simp at h
  | cons d m ih =>
    obtain ⟨hd, hm⟩ := List.pairwise_cons.1 hs
    unfold Memory.put
    split_ifs with h1 h2
    · obtain ⟨c, hc, rfl⟩ := List.mem_map.1 h
      rcases List.mem_cons.1 hc with rfl | hc
      · omega
      · have := hd c hc; omega
    · simp [h2]
    · rcases List.mem_cons.1 h with h | h
      · exact absurd h h2
      · simp [ih hm h]

theorem Memory.nil_wf (unlisted : Option Nat) (size wb : Nat) : Memory.wf unlisted size wb [] := ⟨.nil, by simp⟩

/-- Every write within the space keeps the canonical form. -/
theorem Memory.write_wf {unlisted : Option Nat} {size wb : Nat} {m : Memory} (h : Memory.wf unlisted size wb m) {a : Nat} {v : Nat}
    (ha : a < size) (hv : v < 2 ^ wb) : Memory.wf unlisted size wb (Memory.write unlisted m a v) := by
  unfold Memory.write
  split_ifs with hu
  · exact ⟨h.1.filter _, fun c hc => h.2 c (List.mem_filter.1 hc).1⟩
  · refine ⟨Memory.put_sorted h.1 a v, fun c hc => ?_⟩
    rcases Memory.mem_put hc with rfl | hc
    · exact ⟨ha, hv, fun h' => hu h'.symm⟩
    · exact h.2 c hc

theorem Memory.setWord_wf {size wb : Nat} {m : Memory} (h : Memory.wf zeroWord size wb m) {a : Nat} {v : Nat}
    (ha : a < size) (hv : v < 2 ^ wb) : Memory.wf zeroWord size wb (Memory.setWord m a v) := Memory.write_wf h ha hv

theorem Memory.zeros_addresses (n : Nat) : (Memory.zeros n).map Prod.fst = List.range n := by
  simp [Memory.zeros, Function.comp_def]

theorem Memory.zeros_words {n : Nat} {c : Nat × Nat} (h : c ∈ Memory.zeros n) : c.2 = 0 := by
  obtain ⟨k, -, rfl⟩ := List.mem_map.1 h; rfl

theorem Memory.range_sorted {m : Memory} {n : Nat} (h : m.map Prod.fst = List.range n) : m.Pairwise (fun c d => c.1 < d.1) := by
  rw [← List.pairwise_map (f := Prod.fst) (R := (· < ·)), h]
  exact List.pairwise_lt_range

@[simp] theorem Memory.lookup_zeros (n k : Nat) : Memory.lookup (Memory.zeros n) k = if k < n then some 0 else none := by
  split_ifs with h
  · exact Memory.lookup_of_mem (c := (k, 0)) (Memory.range_sorted (Memory.zeros_addresses n))
      (List.mem_map.2 ⟨k, List.mem_range.2 h, rfl⟩)
  · refine Option.not_isSome_iff_eq_none.1 fun hs => h ?_
    rw [Memory.lookup_isSome_iff, Memory.zeros_addresses] at hs
    exact List.mem_range.1 hs

theorem Memory.word_lt {size wb : Nat} {m : Memory} (h : Memory.wf zeroWord size wb m) (a : Nat) : Memory.word m a < 2 ^ wb := by
  unfold Memory.word
  cases hl : Memory.lookup m a with
  | none => simp
  | some v => exact (h.2 _ (Memory.mem_of_lookup hl)).2.1

/-- Memories in canonical form that list the same words are the same data. -/
theorem Memory.ext_lookup {m n : Memory} (hm : m.Pairwise (fun c d => c.1 < d.1)) (hn : n.Pairwise (fun c d => c.1 < d.1))
    (h : ∀ a, Memory.lookup m a = Memory.lookup n a) : m = n := by
  induction m generalizing n with
  | nil =>
    cases n with
    | nil => rfl
    | cons d n => simpa using h d.1
  | cons c m ih =>
    cases n with
    | nil => simpa using h c.1
    | cons d n =>
      obtain ⟨hc, hm⟩ := List.pairwise_cons.1 hm
      obtain ⟨hd, hn'⟩ := List.pairwise_cons.1 hn
      have hmc : Memory.lookup m c.1 = none := Memory.lookup_eq_none_of_lt hc
      have hnd : Memory.lookup n d.1 = none := Memory.lookup_eq_none_of_lt hd
      have key : c.1 = d.1 := by
        rcases Nat.lt_trichotomy c.1 d.1 with hlt | heq | hgt
        · have h' := h c.1
          rw [Memory.lookup_cons, Memory.lookup_cons, if_pos rfl, if_neg (by omega),
            Memory.lookup_eq_none_of_lt fun e he => Nat.lt_trans hlt (hd e he)] at h'
          cases h'
        · exact heq
        · have h' := h d.1
          rw [Memory.lookup_cons, Memory.lookup_cons, if_pos rfl, if_neg (by omega),
            Memory.lookup_eq_none_of_lt fun e he => Nat.lt_trans hgt (hc e he)] at h'
          cases h'
      have hv : c.2 = d.2 := by simpa [key] using h c.1
      have hcd : c = d := Prod.ext key hv
      subst hcd
      refine congrArg (List.cons c) (ih hm hn' fun a => ?_)
      by_cases ha : a = c.1
      · rw [ha, hmc, hnd]
      · simpa [ha] using h a

/-- XMEM contents in canonical form that read alike are the same data. -/
theorem Memory.ext_word {size wb : Nat} {m n : Memory} (hm : Memory.wf zeroWord size wb m) (hn : Memory.wf zeroWord size wb n)
    (h : ∀ a, Memory.word m a = Memory.word n a) : m = n := by
  refine Memory.ext_lookup hm.1 hn.1 fun a => ?_
  have ne0 : ∀ {k : Memory}, Memory.wf zeroWord size wb k → Memory.lookup k a ≠ some 0 := fun hk h0 =>
    (hk.2 _ (Memory.mem_of_lookup h0)).2.2 rfl
  have h' := h a
  unfold Memory.word at h'
  cases hl : Memory.lookup m a <;> cases hr : Memory.lookup n a
  · rfl
  · rw [hl, hr] at h'; exact absurd (hr.trans (congrArg some h'.symm)) (ne0 hn)
  · rw [hl, hr] at h'; exact absurd (hl.trans (congrArg some h')) (ne0 hm)
  · rw [hl, hr] at h'; simpa using h'

end Sys2Proof.Machine
end

