-- ==== Sys2Proof/Laws/Storage.lean ====
section
/-! SUPPORT. What writing words of the storage buffer does: the words read after it, the memory of the other mode, and every
word that is not written. -/

namespace Sys2Proof.Machine

/-! ### Writes of words, one after the other -/

/-- A word not among the addresses written has no entry among the writes. -/
theorem lookup_eq_none_of_not_mem {ws : List (Nat × Nat)} {k : Nat} (h : k ∉ ws.map Prod.fst) : ws.lookup k = none := by
  rw [List.lookup_eq_none_iff]
  intro p hp
  simp only [bne_iff_ne, ne_eq]
  exact fun e => h (e ▸ List.mem_map_of_mem hp)

/-- The address of a write among writes to different addresses looks up what is written. -/
theorem lookup_of_mem_of_nodup {ws : List (Nat × Nat)} {c : Nat × Nat} (hn : (ws.map Prod.fst).Nodup) (hc : c ∈ ws) :
    ws.lookup c.1 = some c.2 := by
  induction ws with
  | nil => simp at hc
  | cons w ws ih =>
    simp only [List.map_cons, List.nodup_cons] at hn
    rcases List.mem_cons.1 hc with rfl | hc
    · rw [List.lookup_cons]; simp
    · have : (c.1 == w.1) = false := by
        simp only [beq_eq_false_iff_ne]; exact fun e => hn.1 (e ▸ List.mem_map_of_mem hc)
      rw [List.lookup_cons, this]; exact ih hn.2 hc

/-- Words written over words already there. -/
theorem getD_lookup_cons (w : Nat × Nat) (ws : List (Nat × Nat)) (hn : w.1 ∉ ws.map Prod.fst) (j d : Nat) :
    ((w :: ws).lookup j).getD d = (ws.lookup j).getD (if j = w.1 then w.2 else d) := by
  rw [List.lookup_cons]
  by_cases hj : j = w.1
  · subst hj; simp [lookup_eq_none_of_not_mem hn]
  · have : (j == w.1) = false := by simpa using hj
    simp [this, hj]

/-- Writes to different words of a zero-based memory: each reads as written and every other word as before. -/
theorem Memory.word_setWords (ws : List (Nat × Nat)) (m : Memory) (hn : (ws.map Prod.fst).Nodup) (j : Nat) :
    Memory.word (ws.foldl (fun t kv => Memory.setWord t kv.1 kv.2) m) j = (ws.lookup j).getD (Memory.word m j) := by
  induction ws generalizing m with
  | nil => rfl
  | cons w ws ih =>
    simp only [List.map_cons, List.nodup_cons] at hn
    rw [List.foldl_cons, ih _ hn.2, getD_lookup_cons _ _ hn.1, Memory.word_setWord]

/-! ### The storage buffer -/

@[simp] theorem storageWord_addResponse (s : State) (r : Response) : storageWord (s.addResponse r) = storageWord s := rfl

/-- S(j) after S(k) <- v (41_packed_array.md R100). -/
theorem storageWord_setStorageWord (s : State) (k v j : Nat) :
    storageWord (s.setStorageWord k v) j = if j = k then v else storageWord s j := by
  unfold storageWord
  rw [State.setStorageWord_mode]
  cases hm : s.mode
  · simp only [oramWord]
    rw [State.setStorageWord_oram]
    simp only [hm, if_true, Memory.lookup_write_none, State.setStorageWord_params, State.setStorageWord_draws]
    split_ifs <;> rfl
  · simp only [xmemWord]
    rw [State.setStorageWord_xmem]; simp [hm]

/-- S(j) after writes to different words. -/
theorem storageWord_setStorageWords (s : State) (ws : List (Nat × Nat)) (hn : (ws.map Prod.fst).Nodup) (j : Nat) :
    storageWord (s.setStorageWords ws) j = (ws.lookup j).getD (storageWord s j) := by
  induction ws generalizing s with
  | nil => rfl
  | cons w ws ih =>
    simp only [List.map_cons, List.nodup_cons] at hn
    show storageWord ((s.setStorageWord w.1 w.2).setStorageWords ws) j = _
    rw [ih _ hn.2, getD_lookup_cons _ _ hn.1, storageWord_setStorageWord]

/-- The words of a span differ. -/
theorem spanWords_nodup (wb fw i : Nat) : (spanWords wb fw i).Nodup := by
  unfold spanWords; split_ifs <;> simp

/-- S(j) after insert(i, v) (41_packed_array.md R104). -/
theorem storageWord_insertField (s : State) (i v j : Nat) :
    storageWord (s.insertField i v) j =
      ((fieldWrites s.params.wb s.fw i v (storageWord s)).lookup j).getD (storageWord s j) := by
  unfold State.insertField
  rw [storageWord_setStorageWords _ _ (by rw [fieldWrites_addresses]; exact spanWords_nodup _ _ _)]

/-! ### What writes to the buffer leave as it was -/

theorem setStorageWords_oram_borrowed (s : State) (ws : List (Nat × Nat)) (hm : s.mode = .borrowed) :
    (s.setStorageWords ws).oram = s.oram := by
  unfold State.setStorageWords
  induction ws generalizing s with
  | nil => rfl
  | cons w ws ih => rw [List.foldl_cons, ih _ (by simp [hm]), State.setStorageWord_oram]; simp [hm]

theorem setStorageWords_xmem_owned (s : State) (ws : List (Nat × Nat)) (hm : s.mode = .owned) :
    (s.setStorageWords ws).xmem = s.xmem := by
  unfold State.setStorageWords
  induction ws generalizing s with
  | nil => rfl
  | cons w ws ih => rw [List.foldl_cons, ih _ (by simp [hm]), State.setStorageWord_xmem]; simp [hm]

theorem setStorageWords_xmem_borrowed (s : State) (ws : List (Nat × Nat)) (hm : s.mode = .borrowed) :
    (s.setStorageWords ws).xmem =
      (ws.map fun kv => (s.base + kv.1, kv.2)).foldl (fun t kv => Memory.setWord t kv.1 kv.2) s.xmem := by
  unfold State.setStorageWords
  induction ws generalizing s with
  | nil => rfl
  | cons w ws ih =>
    rw [List.foldl_cons, ih _ (by simp [hm]), List.map_cons, List.foldl_cons]
    simp [State.setStorageWord_xmem, hm]

theorem setStorageWords_xmemWord_of_not_mem (s : State) (ws : List (Nat × Nat)) (hm : s.mode = .borrowed) (a : Nat)
    (ha : ∀ k ∈ ws.map Prod.fst, a ≠ s.base + k) : xmemWord (s.setStorageWords ws) a = xmemWord s a := by
  unfold State.setStorageWords
  induction ws generalizing s with
  | nil => rfl
  | cons w ws ih =>
    simp only [List.map_cons, List.mem_cons, forall_eq_or_imp] at ha
    rw [List.foldl_cons, ih _ (by simp [hm]) (by simpa using ha.2)]
    unfold xmemWord
    rw [State.setStorageWord_xmem]; simp [hm, ha.1]

theorem setStorageWords_lookup_oram_of_not_mem (s : State) (ws : List (Nat × Nat)) (hm : s.mode = .owned) (k : Nat)
    (hk : k ∉ ws.map Prod.fst) : Memory.lookup (s.setStorageWords ws).oram k = Memory.lookup s.oram k := by
  unfold State.setStorageWords
  induction ws generalizing s with
  | nil => rfl
  | cons w ws ih =>
    simp only [List.map_cons, List.mem_cons, not_or] at hk
    rw [List.foldl_cons, ih _ (by simp [hm]) hk.2, State.setStorageWord_oram]; simp [hm, hk.1]

/-- PCTFILL's element loop writes no word of ORAM (42_popcount_table.md R153). -/
theorem fillTable_oram (s : State) (n : Nat) (hm : s.mode = .borrowed) : (s.fillTable n).oram = s.oram := by
  induction n with
  | zero => rfl
  | succ n ih =>
    show ((s.fillTable n).setStorageWords _).oram = _
    rw [setStorageWords_oram_borrowed _ _ (by simpa), ih]

/-- Ending a structure states no new word of ORAM (41_packed_array.md R113). -/
theorem forgetOwned_lookup (s : State) (k : Nat) :
    Memory.lookup s.forgetOwned.oram k = none ∨ Memory.lookup s.forgetOwned.oram k = Memory.lookup s.oram k := by
  rw [State.forgetOwned_oram]; split_ifs <;> simp

/-! ### The words an insert writes are WB-bit words -/

theorem fieldWrites_lt {wb fw i v : Nat} {rd : Nat → Nat} (h1 : 1 ≤ fw) (h2 : fw ≤ wb) (hv : v < 2 ^ fw)
    (hr : ∀ k, rd k < 2 ^ wb) : ∀ c ∈ fieldWrites wb fw i v rd, c.2 < 2 ^ wb := by
  have shl : ∀ {x n k : Nat}, x < 2 ^ n → n + k ≤ wb → x <<< k < 2 ^ wb := fun {x n k} hx hk => by
    rw [Nat.shiftLeft_eq]
    calc x * 2 ^ k < 2 ^ n * 2 ^ k := Nat.mul_lt_mul_of_pos_right hx (Nat.two_pow_pos k)
      _ = 2 ^ (n + k) := (Nat.pow_add 2 n k).symm
      _ ≤ 2 ^ wb := Nat.pow_le_pow_right (by decide) hk
  have kept : ∀ k m, (rd k &&& m) < 2 ^ wb := fun k m => Nat.lt_of_le_of_lt Nat.and_le_left (hr k)
  have ho := spanOffset_lt (wb := wb) fw i (by omega)
  intro c hc
  unfold fieldWrites at hc
  cases hone : spanInOneWord wb fw i <;> rw [hone] at hc
  · simp only [Bool.false_eq_true, if_false, List.mem_cons, List.not_mem_nil, or_false] at hc
    have hs : wb < spanOffset wb fw i + fw := by
      have := hone; unfold spanInOneWord at this; simpa using this
    rcases hc with rfl | rfl
    · refine Nat.or_lt_two_pow (kept _ _) (Nat.lt_of_le_of_lt (Nat.shiftRight_le _ _) ?_)
      exact Nat.lt_of_lt_of_le hv (Nat.pow_le_pow_right (by decide) h2)
    · refine Nat.or_lt_two_pow (kept _ _) (shl (n := spanLow wb fw i) ?_ (by unfold spanLow spanHigh; omega))
      exact Nat.lt_of_le_of_lt Nat.and_le_right (mask_lt _)
  · simp only [if_true, List.mem_cons, List.not_mem_nil, or_false] at hc
    have hs : spanOffset wb fw i + fw ≤ wb := by
      have := hone; unfold spanInOneWord at this; simpa using this
    subst hc
    exact Nat.or_lt_two_pow (kept _ _) (shl hv (by unfold spanShift; omega))

end Sys2Proof.Machine
end

