-- ==== Sys2Proof/Laws/Legal.lean ====
section
/-! SUPPORT. Each named update of the state keeps the legal states (`State.Inv`), and a decoded command is well-formed. -/

namespace Sys2Proof.Machine

/-- What the decoder reads fits its fields (30_encoding.md R70, R84). -/
theorem decode_wellFormed (p : Params) (cw : Nat) : (decode p cw).wellFormed p = true := by
  have hf : fwField p cw < 2 ^ 8 := Nat.mod_lt _ (by decide)
  have hi : idxField p cw < 2 ^ p.idxBits := Nat.mod_lt _ (Nat.two_pow_pos _)
  have hv : valField p cw < 2 ^ p.wb := Nat.mod_lt _ (Nat.two_pow_pos _)
  unfold decode
  split <;> simp [Instr.wellFormed, fitsFw, fitsIdx, fitsVal, hi, hv] <;> exact hf

/-- Every word of a legal state's buffer is a WB-bit word. -/
theorem storageWord_lt {s : State} (h : s.Inv) (k : Nat) : storageWord s k < 2 ^ s.params.wb := by
  unfold storageWord
  cases s.mode
  · simp only [oramWord]
    cases hl : Memory.lookup s.oram k with
    | none => exact trunc_lt _ _
    | some v => exact h.oramWords _ (Memory.mem_of_lookup hl)
  · exact Memory.word_lt h.xmemForm _

/-! ### Updates of the ports -/

theorem State.Inv.addResponse {s : State} (h : s.Inv) (r : Response) (hr : r.fits s.params = true) : (s.addResponse r).Inv :=
  ⟨h.params, h.fwWidth, h.capWidth, h.baseWidth, h.widthLegal, h.ownedFits, h.borrowedFits, h.oramListed, h.oramWords,
      h.xmemForm, h.phaseFits, h.inputFits,
    fun x hx => by rcases List.mem_cons.1 hx with rfl | hx; exact hr; exact h.rspsFit x hx⟩

theorem State.Inv.withInput {s : State} (h : s.Inv) {rest} (hr : ∀ e ∈ rest, e.fits s.params = true) : (s.withInput rest).Inv :=
  ⟨h.params, h.fwWidth, h.capWidth, h.baseWidth, h.widthLegal, h.ownedFits, h.borrowedFits, h.oramListed, h.oramWords,
      h.xmemForm, h.phaseFits, hr, h.rspsFit⟩

theorem State.Inv.toIdle {s : State} (h : s.Inv) : s.toIdle.Inv :=
  ⟨h.params, h.fwWidth, h.capWidth, h.baseWidth, h.widthLegal, h.ownedFits, h.borrowedFits, h.oramListed, h.oramWords,
      h.xmemForm, rfl, h.inputFits, h.rspsFit⟩

theorem State.Inv.acceptCommand {s : State} (h : s.Inv) {cw} (hc : cw < 2 ^ cww s.params) : (s.acceptCommand cw).Inv :=
  ⟨h.params, h.fwWidth, h.capWidth, h.baseWidth, h.widthLegal, h.ownedFits, h.borrowedFits, h.oramListed, h.oramWords,
      h.xmemForm, decide_eq_true hc, h.inputFits, h.rspsFit⟩

/-! ### Configuration, release and reset -/

theorem forgetOwned_oram_of_inv {s : State} (h : s.Inv) : s.forgetOwned.oram = [] := by
  rw [State.forgetOwned_oram]
  by_cases hl : s.cfgValid = true ∧ s.mode = .owned
  · rw [if_pos hl]
  · rw [if_neg hl]
    have := h.oramListed
    unfold State.liveOwnedWords at this
    rw [if_neg (by simpa using hl)] at this
    simpa using this

theorem State.Inv.installBorrowed {s : State} (h : s.Inv) {w c b : Nat} (hw : 1 ≤ w ∧ w ≤ s.params.wb) (hc :
    c < 2 ^ s.params.idxBits)
    (hb : b < 2 ^ s.params.xaddrBits) (hn : b + wordCount s.params.wb w c ≤ 2 ^ s.params.xaddrBits) :
        (s.install .borrowed w c b).Inv := by
  have e : (s.install .borrowed w c b).oram = [] := forgetOwned_oram_of_inv h
  have hp := h.params
  constructor <;> try simp only [State.install_params, State.install_cfgValid, State.install_mode, State.install_fw,
      State.install_cap, State.install_base, State.install_nw, State.install_xmem, State.install_phase, State.install_input,
          State.install_rsps]
  · exact hp
  · have := hp.2.2.1; omega
  · exact hc
  · exact hb
  · exact fun _ => hw
  · intro _ h; cases h
  · exact fun _ _ => hn
  · rw [e]; rfl
  · rw [e]; simp
  · exact h.xmemForm
  · exact h.phaseFits
  · exact h.inputFits
  · exact h.rspsFit

theorem State.Inv.installOwned {s : State} (h : s.Inv) {w c : Nat} (hw : 1 ≤ w ∧ w ≤ s.params.wb) (hc :
    c < 2 ^ s.params.idxBits)
    (hn : wordCount s.params.wb w c ≤ s.params.ownedWords) :
        ((s.install .owned w c s.base).zeroFill (wordCount s.params.wb w c)).Inv := by
  have hp := h.params
  constructor <;> try simp only [State.zeroFill_params, State.zeroFill_cfgValid, State.zeroFill_mode, State.zeroFill_fw,
      State.zeroFill_cap, State.zeroFill_base, State.zeroFill_nw, State.zeroFill_oram, State.zeroFill_xmem,
          State.zeroFill_phase, State.zeroFill_input, State.zeroFill_rsps, State.install_params, State.install_cfgValid,
              State.install_mode, State.install_fw, State.install_cap, State.install_base, State.install_nw,
                  State.install_xmem, State.install_phase, State.install_input, State.install_rsps]
  · exact hp
  · have := hp.2.2.1; omega
  · exact hc
  · exact h.baseWidth
  · exact fun _ => hw
  · exact fun _ _ => hn
  · intro _ h; cases h
  · rw [Memory.zeros_addresses]; unfold State.liveOwnedWords; simp
  · intro c hc; rw [Memory.zeros_words hc]; exact Nat.two_pow_pos _
  · exact h.xmemForm
  · exact h.phaseFits
  · exact h.inputFits
  · exact h.rspsFit

theorem State.Inv.retire {s : State} (h : s.Inv) : s.retire.Inv := by
  have e : s.retire.oram = [] := forgetOwned_oram_of_inv h
  have hp := h.params
  constructor <;> try simp only [State.retire_params, State.retire_cfgValid, State.retire_mode, State.retire_fw,
      State.retire_cap, State.retire_base, State.retire_nw, State.retire_xmem, State.retire_phase, State.retire_input,
          State.retire_rsps]
  · exact hp
  · exact h.fwWidth
  · exact h.capWidth
  · exact h.baseWidth
  · intro h; cases h
  · intro h; cases h
  · intro h; cases h
  · rw [e]; rfl
  · rw [e]; simp
  · exact h.xmemForm
  · exact h.phaseFits
  · exact h.inputFits
  · exact h.rspsFit

theorem State.Inv.resetBlock {s : State} (h : s.Inv) : s.resetBlock.Inv := by
  constructor <;> try simp only [State.resetBlock]
  · exact h.params
  · decide
  · exact Nat.two_pow_pos _
  · exact Nat.two_pow_pos _
  · intro h; cases h
  · intro h; cases h
  · intro h; cases h
  · rfl
  · simp
  · exact h.xmemForm
  · rfl
  · exact h.inputFits
  · exact h.rspsFit

/-! ### Storage -/

theorem State.Inv.withXmem {s : State} (h : s.Inv) {m} (hm : Memory.wf zeroWord (2 ^ s.params.xaddrBits) s.params.wb m) :
    ({s with xmem := m} : State).Inv :=
  ⟨h.params, h.fwWidth, h.capWidth, h.baseWidth, h.widthLegal, h.ownedFits, h.borrowedFits, h.oramListed, h.oramWords, hm,
      h.phaseFits, h.inputFits, h.rspsFit⟩

theorem State.Inv.setStorageWord {s : State} (h : s.Inv) (hc : s.cfgValid = true) {k : Nat} {v : Nat} (hk : k < s.nw) (hv :
    v < 2 ^ s.params.wb) : (s.setStorageWord k v).Inv := by
  have live : (s.setStorageWord k v).liveOwnedWords = s.liveOwnedWords := by unfold State.liveOwnedWords State.nw; simp
  have nw : (s.setStorageWord k v).nw = s.nw := by unfold State.nw; simp
  constructor <;> try simp only [State.setStorageWord_params, State.setStorageWord_cfgValid, State.setStorageWord_mode,
      State.setStorageWord_fw, State.setStorageWord_cap, State.setStorageWord_base, nw, State.setStorageWord_phase,
          State.setStorageWord_input, State.setStorageWord_rsps]
  · exact h.params
  · exact h.fwWidth
  · exact h.capWidth
  · exact h.baseWidth
  · exact h.widthLegal
  · exact h.ownedFits
  · exact h.borrowedFits
  · rw [live, ← h.oramListed, State.setStorageWord_oram]
    split_ifs with hm
    · have hl : s.liveOwnedWords = s.nw := by unfold State.liveOwnedWords; simp [hc, hm]
      unfold Memory.write; rw [if_neg (by simp)]
      exact Memory.put_addresses (Memory.range_sorted h.oramListed) (by rw [h.oramListed, hl]; exact List.mem_range.2 hk) v
    · rfl
  · rw [State.setStorageWord_oram]
    split_ifs with hm
    · intro c hcm
      unfold Memory.write at hcm; rw [if_neg (by simp)] at hcm
      rcases Memory.mem_put hcm with rfl | hcm
      · exact hv
      · exact h.oramWords c hcm
    · exact h.oramWords
  · rw [State.setStorageWord_xmem]
    split_ifs with hm
    · exact h.xmemForm
    · have hm : s.mode = .borrowed := by cases hh : s.mode; exact absurd hh hm; rfl
      have := h.borrowedFits hc hm
      exact Memory.setWord_wf h.xmemForm (by omega) hv
  · exact h.phaseFits
  · exact h.inputFits
  · exact h.rspsFit

theorem State.Inv.setStorageWords {s : State} (h : s.Inv) (hc : s.cfgValid = true) (ws : List (Nat × Nat))
    (hw : ∀ c ∈ ws, c.1 < s.nw ∧ c.2 < 2 ^ s.params.wb) : (s.setStorageWords ws).Inv := by
  induction ws generalizing s with
  | nil => exact h
  | cons w ws ih =>
    have h1 := hw w (by simp)
    refine ih (s := s.setStorageWord w.1 w.2) (State.Inv.setStorageWord h hc h1.1 h1.2) (by simpa) fun c hcm => ?_
    have := hw c (List.mem_cons_of_mem _ hcm)
    simpa [State.nw] using this

/-- insert(i, v) keeps the legal states when the span's words lie in the buffer and the value fits its field. -/
theorem State.Inv.insertField {s : State} (h : s.Inv) (hc : s.cfgValid = true) {i v : Nat}
    (hi : ∀ k ∈ spanWords s.params.wb s.fw i, k < s.nw) (hv : v < 2 ^ s.fw) : (s.insertField i v).Inv := by
  have hw := h.widthLegal hc
  refine State.Inv.setStorageWords h hc _ fun c hcm => ⟨hi _ ?_, fieldWrites_lt hw.1 hw.2 hv (storageWord_lt h) c hcm⟩
  rw [← fieldWrites_addresses]; exact List.mem_map_of_mem hcm

end Sys2Proof.Machine
end

