-- ==== Sys2Proof/Laws/PerInstr.lean ====
section
/-! SUPPORT. Statements made for every command, one lemma a constructor. -/

namespace Sys2Proof.Laws

/-- What stands above a field of an assembled word. -/
theorem above_field {a b n : Nat} (h : b < n) : (a * n + b) / n = a := by
  rw [Nat.mul_comm, Nat.mul_add_div (by omega), Nat.div_eq_of_lt h, Nat.add_zero]

/-- A field of an assembled word. -/
theorem lowest_field {a b n : Nat} (h : b < n) : (a * n + b) % n = b := by
  rw [Nat.mul_comm, Nat.mul_add_mod, Nat.mod_eq_of_lt h]

/-- A word below `a`, put above a field of size `n`, stays below `a * n`. -/
theorem assemble_step {a x b n : Nat} (hx : x < a) (hb : b < n) : x * n + b < a * n :=
  calc x * n + b < x * n + n := by omega
    _ = (x + 1) * n := (Nat.succ_mul x n).symm
    _ ≤ a * n := Nat.mul_le_mul_right n hx

/-- The op field of an assembled word is its op value, whatever stands in the other fields (30_encoding.md R70). -/
theorem opField_assemble (p : Params) {op fw idx val : Nat} (ho : op < 16) (hf : fw < 2 ^ 8) (hi : idx < 2 ^ p.idxBits)
    (hv : val < 2 ^ p.wb) : opField p (assemble p op fw idx val) = op := by
  unfold opField bitField assemble
  rw [Nat.shiftRight_eq_div_pow, Nat.add_assoc, Nat.pow_add, ← Nat.div_div_eq_div_mul, above_field hv, Nat.pow_add,
    ← Nat.div_div_eq_div_mul, above_field hi, above_field hf]
  exact Nat.mod_eq_of_lt ho

/-- A word assembled of fields that fit is a command word (30_encoding.md R70). -/
theorem assemble_lt (p : Params) {op fw idx val : Nat} (ho : op < 16) (hf : fw < 2 ^ 8) (hi : idx < 2 ^ p.idxBits)
    (hv : val < 2 ^ p.wb) : assemble p op fw idx val < 2 ^ cww p := by
  unfold assemble cww
  rw [Nat.pow_add, Nat.pow_add, show (2 : Nat) ^ 12 = 16 * 2 ^ 8 from rfl]
  exact assemble_step (assemble_step (assemble_step ho hf) hi) hv

namespace OpField

/-- The word the assembler writes for a well-formed command is a command word whose op field is the command's op value
(30_encoding.md R70, R73, R84). -/
def Statement (i : Instr) : Prop :=
  ∀ p : Params, i.wellFormed p = true → encode p i < 2 ^ cww p ∧ opField p (encode p i) = i.opValue

theorem of_assemble {p : Params} {i : Instr} {fw idx val : Nat} (he : encode p i = assemble p i.opValue fw idx val)
    (hf : fw < 2 ^ 8) (hi : idx < 2 ^ p.idxBits) (hv : val < 2 ^ p.wb) :
    encode p i < 2 ^ cww p ∧ opField p (encode p i) = i.opValue := by
  have ho : i.opValue < 16 := by cases i <;> simp [Instr.opValue]
  rw [he]
  exact ⟨assemble_lt p ho hf hi hv, opField_assemble p ho hf hi hv⟩

theorem cfgo (fw cap : Nat) : Statement (.cfgo fw cap) := fun p h => by
  simp only [Instr.wellFormed, fitsFw, fitsIdx, Bool.and_eq_true, decide_eq_true_eq] at h
  exact of_assemble rfl h.1 h.2 (Nat.two_pow_pos _)

theorem cfgb (fw cap base : Nat) : Statement (.cfgb fw cap base) := fun p h => by
  simp only [Instr.wellFormed, fitsFw, fitsIdx, fitsVal, Bool.and_eq_true, decide_eq_true_eq] at h
  exact of_assemble rfl h.1.1 h.1.2 h.2

theorem get (idx : Nat) : Statement (.get idx) := fun p h => by
  simp only [Instr.wellFormed, fitsIdx, decide_eq_true_eq] at h
  exact of_assemble rfl (by decide) h (Nat.two_pow_pos _)

theorem write (idx value : Nat) : Statement (.write idx value) := fun p h => by
  simp only [Instr.wellFormed, fitsIdx, fitsVal, Bool.and_eq_true, decide_eq_true_eq] at h
  exact of_assemble rfl (by decide) h.1 h.2

theorem release : Statement .release := fun p _ =>
  of_assemble rfl (by decide) (Nat.two_pow_pos _) (Nat.two_pow_pos _)

theorem rank (pattern : Nat) : Statement (.rank pattern) := fun p h => by
  simp only [Instr.wellFormed, fitsIdx, decide_eq_true_eq] at h
  exact of_assemble rfl (by decide) h (Nat.two_pow_pos _)

theorem popcnt (value : Nat) : Statement (.popcnt value) := fun p h => by
  simp only [Instr.wellFormed, fitsVal, decide_eq_true_eq] at h
  exact of_assemble rfl (by decide) (Nat.two_pow_pos _) h

theorem pctfill (w base : Nat) : Statement (.pctfill w base) := fun p h => by
  simp only [Instr.wellFormed, fitsFw, fitsVal, Bool.and_eq_true, decide_eq_true_eq] at h
  exact of_assemble rfl h.1 (Nat.two_pow_pos _) h.2

theorem reserved0 : Statement .reserved0 := fun p _ => of_assemble rfl (by decide) (Nat.two_pow_pos _) (Nat.two_pow_pos _)

theorem reserved9 : Statement .reserved9 := fun p _ => of_assemble rfl (by decide) (Nat.two_pow_pos _) (Nat.two_pow_pos _)

theorem reservedA : Statement .reservedA := fun p _ => of_assemble rfl (by decide) (Nat.two_pow_pos _) (Nat.two_pow_pos _)

theorem reservedB : Statement .reservedB := fun p _ => of_assemble rfl (by decide) (Nat.two_pow_pos _) (Nat.two_pow_pos _)

theorem reservedC : Statement .reservedC := fun p _ => of_assemble rfl (by decide) (Nat.two_pow_pos _) (Nat.two_pow_pos _)

theorem reservedD : Statement .reservedD := fun p _ => of_assemble rfl (by decide) (Nat.two_pow_pos _) (Nat.two_pow_pos _)

theorem reservedE : Statement .reservedE := fun p _ => of_assemble rfl (by decide) (Nat.two_pow_pos _) (Nat.two_pow_pos _)

theorem reservedF : Statement .reservedF := fun p _ => of_assemble rfl (by decide) (Nat.two_pow_pos _) (Nat.two_pow_pos _)

end OpField

end Sys2Proof.Laws
end

