-- ==== Sys2Proof/Laws/Popcount.lean ====
section
/-! SUPPORT. The population count of 00_scope.md R15 over any width that holds its argument, and the bounds of the lane masks. -/

namespace Sys2Proof.Machine

@[simp] theorem popcountBelow_zero_bits (v : Nat) : popcountBelow 0 v = 0 := rfl

theorem popcountBelow_succ (n v : Nat) : popcountBelow (n + 1) v = popcountBelow n v + (v.testBit n).toNat := rfl

/-- Numbers with the same low bits have the same count below them. -/
theorem popcountBelow_congr {n x y : Nat} (h : ∀ b, b < n → x.testBit b = y.testBit b) :
    popcountBelow n x = popcountBelow n y := by
  induction n with
  | zero => rfl
  | succ n ih => rw [popcountBelow_succ, popcountBelow_succ, ih fun b hb => h b (by omega), h n (by omega)]

/-- The count of a word is the sum of the counts of its two parts. -/
theorem popcountBelow_add (a b v : Nat) : popcountBelow (a + b) v = popcountBelow a v + popcountBelow b (v >>> a) := by
  induction b with
  | zero => rfl
  | succ b ih =>
    rw [← Nat.add_assoc, popcountBelow_succ, popcountBelow_succ, ih, Nat.testBit_shiftRight, Nat.add_assoc]

/-- Bits above the number's width count nothing. -/
theorem popcountBelow_stable {n v : Nat} (h : v < 2 ^ n) (m : Nat) (hm : n ≤ m) : popcountBelow m v = popcountBelow n v := by
  induction m with
  | zero => obtain rfl : n = 0 := by omega
            rfl
  | succ m ih =>
    rcases Nat.lt_or_ge m n with h1 | h1
    · obtain rfl : m + 1 = n := by omega
      rfl
    · rw [popcountBelow_succ, Nat.testBit_lt_two_pow (Nat.lt_of_lt_of_le h (Nat.pow_le_pow_right (by decide) h1)), ih h1]; rfl

/-- popcount(v) counts the bits below any width that holds v. -/
theorem popcount_eq_popcountBelow {n v : Nat} (h : v < 2 ^ n) : popcount v = popcountBelow n v := by
  unfold popcount
  rcases Nat.le_total n (Nat.log2 v + 1) with hh | hh
  · exact popcountBelow_stable h _ hh
  · exact (popcountBelow_stable Nat.lt_log2_self _ hh).symm

/-- A lane mask is a word of its width. -/
theorem laneMaskBelow_lt (k n : Nat) : laneMaskBelow k n < 2 ^ n := by
  induction n with
  | zero => simp [laneMaskBelow]
  | succ n ih =>
    show laneMaskBelow k n + (if n % 2 ^ (k + 1) < 2 ^ k then 2 ^ n else 0) < 2 ^ (n + 1)
    rw [Nat.pow_succ 2 n]; have := Nat.two_pow_pos n; split <;> omega

end Sys2Proof.Machine
end

