-- ==== Sys2Proof/Laws/Port.lean ====
section
/-! SUPPORT. The external storage port: the writes of an insert and of PCTFILL's loop, a reset during a command, and several
steps in a row. -/

namespace Sys2Proof.Machine

/-- A run of k + 1 steps whose first step goes on. -/
theorem run_next {M : Host.Core} {k : Nat} {s t : M.State} (h : M.step s = .next t) : M.run (k + 1) s = M.run k t := by
  have : M.run (k+1) s = match M.step s with | .next s' => M.run k s' | .fault r => .fault r | .refused r => .refused r := rfl
  rw [this, h]

/-- A run of k + 1 steps that goes on starts with a step that goes on. -/
theorem run_first {M : Host.Core} {k : Nat} {s u : M.State} (h : M.run (k + 1) s = .next u) :
    ∃ t, M.step s = .next t ∧ M.run k t = .next u := by
  have e : M.run (k + 1) s = match M.step s with | .next s' => M.run k s' | .fault r => .fault r | .refused r => .refused r := rfl
  rw [e] at h
  cases hs : M.step s with
  | next t => rw [hs] at h; exact ⟨t, rfl, h⟩
  | fault f => rw [hs] at h; cases h
  | refused f => rw [hs] at h; cases h

/-! ### Accesses (41_packed_array.md R104, 42_popcount_table.md R153) -/

/-- A write of an insert is one of its field writes, at the buffer address. -/
theorem mem_insertAccesses_write {s : State} {i v : Nat} {a x} (hx : (XmAccess.write a x) ∈ insertAccesses s i v) :
   s.mode = .borrowed ∧ ∃ k, (k, x) ∈ fieldWrites s.params.wb s.fw i v (storageWord s) ∧ a = s.base + k := by
  unfold insertAccesses at hx
  cases hm : s.mode
  · rw [hm] at hx; simp at hx
  · rw [hm] at hx
    simp only [List.mem_flatMap, List.mem_cons, List.not_mem_nil, or_false] at hx
    obtain ⟨⟨k, y⟩, h1, h2⟩ := hx
    simp at h2
    obtain ⟨rfl, rfl⟩ := h2
    exact ⟨rfl, k, h1, rfl⟩

/-- Every access of an insert is to a word of the span. -/
theorem mem_insertAccesses {s : State} {i v : Nat} {a : XmAccess} (hx : a ∈ insertAccesses s i v) :
   s.mode = .borrowed ∧ ∃ k, k ∈ spanWords s.params.wb s.fw i ∧ a.addr = s.base + k := by
  unfold insertAccesses at hx
  cases hm : s.mode
  · rw [hm] at hx; simp at hx
  · rw [hm] at hx
    simp only [List.mem_flatMap, List.mem_cons, List.not_mem_nil, or_false] at hx
    obtain ⟨⟨k, y⟩, h1, h2⟩ := hx
    refine ⟨rfl, k, by rw [← fieldWrites_addresses]; exact List.mem_map_of_mem h1, ?_⟩
    rcases h2 with rfl | rfl <;> rfl

/-- An access of the loop is one of some insert. -/
theorem mem_fillAccesses {s : State} {n : Nat} {a} (ha : a ∈ fillAccesses s n) :
    ∃ j, j < n ∧ a ∈ insertAccesses (s.fillTable j) j (swarPopcount s.params.wb j) := by
  induction n with
  | zero => simp [fillAccesses] at ha
  | succ n ih =>
    rcases List.mem_append.1 ha with ha | ha
    · obtain ⟨j, h1, h2⟩ := ih ha; exact ⟨j, by omega, h2⟩
    · exact ⟨n, by omega, ha⟩

theorem written_insertAccesses (s : State) (i v) (hm : s.mode = .borrowed) :
    (insertAccesses s i v).filterMap XmAccess.written =
      (fieldWrites s.params.wb s.fw i v (storageWord s)).map fun kv => (s.base + kv.1, kv.2) := by
  unfold insertAccesses; rw [hm]; simp only
  generalize fieldWrites s.params.wb s.fw i v (storageWord s) = ws
  induction ws with
  | nil => rfl
  | cons w ws ih =>
    rw [List.flatMap_cons, List.filterMap_append, ih]; rfl

theorem insertField_xmem (s : State) (i v) :
    (s.insertField i v).xmem =
      ((insertAccesses s i v).filterMap XmAccess.written).foldl (fun t kv => Memory.setWord t kv.1 kv.2) s.xmem := by
  cases hm : s.mode
  · unfold State.insertField; rw [setStorageWords_xmem_owned _ _ hm]; unfold insertAccesses; rw [hm]; rfl
  · unfold State.insertField; rw [setStorageWords_xmem_borrowed _ _ hm, written_insertAccesses _ _ _ hm]

theorem fillTable_xmem (s : State) (n) :
    (s.fillTable n).xmem =
      ((fillAccesses s n).filterMap XmAccess.written).foldl (fun t kv => Memory.setWord t kv.1 kv.2) s.xmem := by
  induction n with
  | zero => rfl
  | succ n ih =>
    show ((s.fillTable n).insertField n _).xmem = _
    rw [insertField_xmem, ih]
    show _ = List.foldl _ _ (List.filterMap _ (fillAccesses s n ++ insertAccesses (s.fillTable n) n _))
    rw [List.filterMap_append, List.foldl_append]

/-- A word after writes holds the last value written to it. -/
theorem word_foldl_setWord (ws : List (Nat × Nat)) (m : Memory) (a : Nat) :
    Memory.word (ws.foldl (fun t kv => Memory.setWord t kv.1 kv.2) m) a =
      ((valuesWritten ws a).getLast?).getD (Memory.word m a) := by
  induction ws generalizing m with
  | nil => rfl
  | cons w ws ih =>
    rw [List.foldl_cons, ih, Memory.word_setWord]
    unfold valuesWritten
    by_cases h : w.1 = a
    · subst h; simp [List.getLast?_cons]
    · have : ¬ a = w.1 := fun e => h e.symm
      simp [h, this]

/-! ### The host's moves play no part in an access -/

theorem setStorageWords_withInput (s : State) (r) (ws : List (Nat × Nat)) :
    (s.withInput r).setStorageWords ws = (s.setStorageWords ws).withInput r := by
  unfold State.setStorageWords
  induction ws generalizing s with
  | nil => rfl
  | cons w ws ih =>
    rw [List.foldl_cons, List.foldl_cons, ← ih]
    congr 1
    unfold State.setStorageWord
    cases h : s.mode <;> simp [h] <;> rfl

theorem fillTable_withInput (s : State) (r) (n : Nat) : (s.withInput r).fillTable n = (s.fillTable n).withInput r := by
  induction n with
  | zero => rfl
  | succ n ih =>
    show ((s.withInput r).fillTable n).insertField _ _ = _
    rw [ih]; exact setStorageWords_withInput _ _ _

theorem fillAccesses_withInput (s : State) (r) (n : Nat) : fillAccesses (s.withInput r) n = fillAccesses s n := by
  induction n with
  | zero => rfl
  | succ n ih =>
    show fillAccesses (s.withInput r) n ++ insertAccesses ((s.withInput r).fillTable n) _ _ = _
    rw [ih, fillTable_withInput]; rfl

theorem install_withInput (s : State) (r m w c b) : (s.withInput r).install m w c b = (s.install m w c b).withInput r := by
  unfold State.install State.forgetOwned
  by_cases h : (s.cfgValid && s.mode == .owned) = true
  · simp [h, State.withInput]
  · simp [h, State.withInput]

theorem xmAccesses_withInput (s : State) (r) (i) : xmAccesses i (s.withInput r) = xmAccesses i s := by
  cases i <;> try rfl
  simp only [xmAccesses]
  rw [install_withInput, fillAccesses_withInput]; rfl

/-! ### Reset during a command (70_reset_and_hazards.md R193) -/

/-- An abandoned word is the old one or a written one. -/
theorem abandonedWord_cases (d : Nat) (ws : List (Nat × Nat)) (m : Memory) (a : Nat) :
   abandonedWord d ws m a = Memory.word m a ∨ (a, abandonedWord d ws m a) ∈ ws := by
  unfold abandonedWord
  simp only
  generalize hp : Memory.word m a :: valuesWritten ws a = ps
  have hpos : 0 < ps.length := by rw [← hp]; simp
  have hlt := Nat.mod_lt (Config.resetChoice d a) hpos
  rw [List.getD_eq_getElem _ _ hlt]
  have : ps[Config.resetChoice d a % ps.length] ∈ ps := List.getElem_mem _
  generalize ps[Config.resetChoice d a % ps.length] = y at *
  rw [← hp] at this
  rcases List.mem_cons.1 this with h | h
  · exact .inl h
  · right
    unfold valuesWritten at h
    obtain ⟨⟨b, z⟩, h1, h2⟩ := List.mem_map.1 h
    obtain ⟨h3, h4⟩ := List.mem_filter.1 h1
    simp at h4 h2; subst h4; subst h2; exact h3

/-- Each address of a list set to its own value. -/
theorem word_foldl_setEach (g : Nat → Nat) (l : List Nat) (m : Memory) (a : Nat) :
   Memory.word (l.foldl (fun t a => Memory.setWord t a (g a)) m) a = if a ∈ l then g a else Memory.word m a := by
  induction l generalizing m with
  | nil => rfl
  | cons b l ih =>
    rw [List.foldl_cons, ih, Memory.word_setWord]
    by_cases h1 : a ∈ l
    · simp [h1]
    · by_cases h2 : a = b
      · subst h2; simp
      · simp [h1, h2]

theorem foldl_setEach_wf {size wb} (g : Nat → Nat) (l : List Nat) (m : Memory)
    (h : Memory.wf zeroWord size wb m) (hl : ∀ a ∈ l, a < size ∧ g a < 2 ^ wb) :
    Memory.wf zeroWord size wb (l.foldl (fun t a => Memory.setWord t a (g a)) m) := by
  induction l generalizing m with
  | nil => exact h
  | cons b l ih =>
    rw [List.foldl_cons]
    exact ih _ (Memory.setWord_wf h (hl b (by simp)).1 (hl b (by simp)).2) fun a ha => hl a (List.mem_cons_of_mem _ ha)

end Sys2Proof.Machine
end

