-- ==== Sys2Proof/Tests/Slice0.lean ====
section
/-! SUPPORT. The model's own tests: ill-formed terms the well-formedness check refuses, command words written out from the spec's
encoding, one step of each command with the result the spec's vectors give, and a witness for the hypotheses of every statement.
Expected values come from 30_encoding.md section 7 and 95_test_vectors.md, or are worked out by hand from the rule cited. -/

open Sys2Proof Sys2Proof.Machine

namespace Sys2Proof.Tests

/-! ### Helpers -/

/-- The response of a command that completes. -/
def responseOf (o : Host.Outcome State Fault Refusal) : Option Response :=
  match o with
  | .next t => t.rsps.head?
  | .fault _ => none
  | .refused _ => none

/-- XMEM after a command that completes. -/
def xmemOf (o : Host.Outcome State Fault Refusal) : Option Memory :=
  match o with
  | .next t => some t.xmem
  | .fault _ => none
  | .refused _ => none

/-- ORAM after a command that completes. -/
def oramOf (o : Host.Outcome State Fault Refusal) : Option Memory :=
  match o with
  | .next t => some t.oram
  | .fault _ => none
  | .refused _ => none

/-- CFG_VALID, MODE, FW, CAP, BASE after a command that completes. -/
def configOf (o : Host.Outcome State Fault Refusal) : Option (Bool × Mode × Nat × Nat × Nat) :=
  match o with
  | .next t => some (t.cfgValid, t.mode, t.fw, t.cap, t.base)
  | .fault _ => none
  | .refused _ => none

/-- A state of the default instance with a live structure. -/
def live (m : Mode) (w c b : Nat) (oram xmem : Memory) : State :=
  { State.reset with cfgValid := true, mode := m, fw := w, cap := c, base := b, oram := oram, xmem := xmem }

/-- The XMEM that 95_test_vectors.md V-G1 starts from. -/
def xmemG1 : Memory := [(0x1000, 0x0123456789ABCDEF), (0x1001, 0xFEDCBA9876543210), (0x1002, 0x0F0F0F0F0F0F0F0F)]

/-- After the CFGB of V-G1. -/
def stateG1 : State := live .borrowed 13 10 0x1000 [] xmemG1

/-- An 8-bit instance: PW = 3, WB = 8, XADDR_BITS = 8 of 95_test_vectors.md V-R1, with IDX_BITS = 4 and four words of ORAM. -/
def tiny : Params := { wb := 8, idxBits := 4, ownedWords := 4, xaddrBits := 8, pw := 3 }

/-- The reset state of the 8-bit instance. -/
def tinyReset : State := { State.reset with params := tiny }

/-- The 8-bit instance with a live owned structure: 3 elements of 7 bits in 3 words. -/
def tinyOwned : State :=
  { tinyReset with cfgValid := true, mode := .owned, fw := 7, cap := 3, oram := [(0, 0x12), (1, 0x34), (2, 0x56)] }

/-- The 8-bit instance with a live borrowed structure at the top of XMEM: 4 elements of 5 bits in the words 253 to 255. -/
def tinyBorrowed : State :=
  { tinyReset with cfgValid := true, mode := .borrowed, fw := 5, cap := 4, base := 253, xmem := [(3, 1), (253, 0xAB), (255, 0xCD)] }

/-- The 8-bit instance with a GET in flight. -/
def tinyBusy : State := { tinyBorrowed with phase := .busy (encode tiny (.get 1)) }

theorem tinyReset_inv : tinyReset.Inv := by constructor <;> decide

theorem tinyOwned_inv : tinyOwned.Inv := by constructor <;> decide

theorem tinyBorrowed_inv : tinyBorrowed.Inv := by constructor <;> decide

theorem tinyBusy_inv : tinyBusy.Inv := by constructor <;> decide

/-! ### Well-formedness refuses each ill-formed operand (30_encoding.md R84) -/

theorem test_wellFormed_cfgo_fw : (Instr.cfgo 256 0).wellFormed Config.block = false := by decide
theorem test_wellFormed_cfgo_cap : (Instr.cfgo 0 (2 ^ 32)).wellFormed Config.block = false := by decide
theorem test_wellFormed_cfgb_fw : (Instr.cfgb 256 0 0).wellFormed Config.block = false := by decide
theorem test_wellFormed_cfgb_cap : (Instr.cfgb 0 (2 ^ 32) 0).wellFormed Config.block = false := by decide
theorem test_wellFormed_cfgb_base : (Instr.cfgb 0 0 (2 ^ 64)).wellFormed Config.block = false := by decide
theorem test_wellFormed_get_idx : (Instr.get (2 ^ 32)).wellFormed Config.block = false := by decide
theorem test_wellFormed_write_idx : (Instr.write (2 ^ 32) 0).wellFormed Config.block = false := by decide
theorem test_wellFormed_write_value : (Instr.write 0 (2 ^ 64)).wellFormed Config.block = false := by decide
theorem test_wellFormed_rank : (Instr.rank (2 ^ 32)).wellFormed Config.block = false := by decide
theorem test_wellFormed_popcnt : (Instr.popcnt (2 ^ 64)).wellFormed Config.block = false := by decide
theorem test_wellFormed_pctfill_w : (Instr.pctfill 256 0).wellFormed Config.block = false := by decide
theorem test_wellFormed_pctfill_base : (Instr.pctfill 0 (2 ^ 64)).wellFormed Config.block = false := by decide

/-! ### Derived constants of the default instance (00_scope.md R12) -/

theorem test_constants : cww Config.block = 108 ∧ promWords Config.block = 32 ∧ pctWMax Config.block = 31 := by decide

/-! ### Decoding: words written out from 30_encoding.md R70, R73 (op_fw_idx_val) -/

theorem test_decode_cfgo : decode Config.block 0x1_07_00000040_0000000000000000 = .cfgo 7 64 := by decide
theorem test_decode_cfgb : decode Config.block 0x2_0D_00000064_0000000000001000 = .cfgb 13 100 0x1000 := by decide
theorem test_decode_get : decode Config.block 0x3_00_00000009_0000000000000000 = .get 9 := by decide
theorem test_decode_write : decode Config.block 0x4_00_00000002_00000000000000FF = .write 2 255 := by decide
theorem test_decode_release : decode Config.block 0x5_00_00000000_0000000000000000 = .release := by decide
theorem test_decode_rank : decode Config.block 0x6_00_000000FF_0000000000000000 = .rank 0xFF := by decide
theorem test_decode_popcnt : decode Config.block 0x7_00_00000000_00000000DEADBEEF = .popcnt 0xDEADBEEF := by decide
theorem test_decode_pctfill : decode Config.block 0x8_03_00000000_0000000000000100 = .pctfill 3 0x100 := by decide
theorem test_decode_reserved0 : decode Config.block 0x0_00_00000000_0000000000000000 = .reserved0 := by decide
theorem test_decode_reserved9 : decode Config.block 0x9_00_00000000_0000000000000000 = .reserved9 := by decide
theorem test_decode_reservedA : decode Config.block 0xA_00_00000000_0000000000000000 = .reservedA := by decide
theorem test_decode_reservedB : decode Config.block 0xB_FF_00000000_0000000000000001 = .reservedB := by decide
theorem test_decode_reservedC : decode Config.block 0xC_01_00000002_0000000000000003 = .reservedC := by decide
theorem test_decode_reservedD : decode Config.block 0xD_00_FFFFFFFF_0000000000000000 = .reservedD := by decide
theorem test_decode_reservedE : decode Config.block 0xE_00_00000000_FFFFFFFFFFFFFFFF = .reservedE := by decide
theorem test_decode_reservedF : decode Config.block 0xF_07_00000007_0000000000000007 = .reservedF := by decide

/-- A field the table of R73 marks ignored is not read (30_encoding.md R74). -/
theorem test_decode_ignores :
    decode Config.block 0x7_FF_FFFFFFFF_00000000000000F0 = .popcnt 0xF0 ∧
    decode Config.block 0x5_FF_FFFFFFFF_FFFFFFFFFFFFFFFF = .release ∧
    decode Config.block 0x3_FF_00000009_FFFFFFFFFFFFFFFF = .get 9 := by decide

/-- A word numbered as the opcode table numbers it is the op field (log entry 2). -/
theorem test_decodeTableWord :
    decodeTableWord 4 0x1 = some (.cfgo 0 0) ∧ decodeTableWord 8 0x8 = some (.pctfill 0 0) ∧
    decodeTableWord 8 0xF = some .reservedF ∧ decodeTableWord 112 0x3_00_00000009_0000000000000000 = some (.get 9) := by decide

/-! ### One step of each command -/

/-- V-A1 row 1 and section 2.3 row 8: NW words of zero. -/
theorem test_cfgo : oramOf (exec (.cfgo 7 64) State.reset) =
    some [(0, 0), (1, 0), (2, 0), (3, 0), (4, 0), (5, 0), (6, 0)] ∧
    configOf (exec (.cfgo 7 64) State.reset) = some (true, .owned, 7, 64, 0) := by decide

/-- Section 2.3 rows 2 and 5, section 2.7: WIDTH before SPACE. -/
theorem test_cfgo_fails : responseOf (exec (.cfgo 65 10) State.reset) = some ⟨.width, 0⟩ ∧
    responseOf (exec (.cfgo 64 1025) State.reset) = some ⟨.space, 0⟩ ∧
    responseOf (exec (.cfgo 0 0xFFFFFFFF) State.reset) = some ⟨.width, 0⟩ := by decide

/-- Section 2.3 row 12: b + n = 2^32 exactly. -/
theorem test_cfgb : configOf (exec (.cfgb 64 1 0xFFFFFFFF) State.reset) = some (true, .borrowed, 64, 1, 0xFFFFFFFF) := by decide

/-- Section 2.3 rows 10, 13, 15. -/
theorem test_cfgb_fails : responseOf (exec (.cfgb 0 100 (2 ^ 40)) State.reset) = some ⟨.width, 0⟩ ∧
    responseOf (exec (.cfgb 64 2 0xFFFFFFFF) State.reset) = some ⟨.base, 0⟩ ∧
    responseOf (exec (.cfgb 13 0 (2 ^ 32)) State.reset) = some ⟨.base, 0⟩ := by decide

/-- V-G1: a one-word field and the two straddling fields. -/
theorem test_get : responseOf (exec (.get 2) stateG1) = some ⟨.ok, 0x13C4⟩ ∧
    responseOf (exec (.get 4) stateG1) = some ⟨.ok, 0x1BDF⟩ ∧ responseOf (exec (.get 9) stateG1) = some ⟨.ok, 0x0840⟩ := by decide

/-- V-G1 and V-G7. -/
theorem test_get_fails : responseOf (exec (.get 10) stateG1) = some ⟨.range, 0⟩ ∧
    responseOf (exec (.get 0xFFFFFFFF) State.reset) = some ⟨.noCfg, 0⟩ := by decide

/-- V-G1: WRITE 4, 0xAAA straddles two words and keeps their other bits. -/
theorem test_write_straddles : xmemOf (exec (.write 4 0xAAA) stateG1) =
    some [(0x1000, 0x0123456789ABC555), (0x1001, 0x7EDCBA9876543210), (0x1002, 0x0F0F0F0F0F0F0F0F)] ∧
    xmAccesses (.write 4 0xAAA) stateG1 =
      [.read 0x1000, .write 0x1000 0x0123456789ABC555, .read 0x1001, .write 0x1001 0x7EDCBA9876543210] := by decide

/-- V-A1 row 2 on its own: 255 is truncated to 127, at bits 49:43 of word 0. -/
theorem test_write_owned : oramOf (exec (.write 2 255) (live .owned 7 8 0 [(0, 0)] [])) = some [(0, 0x0003F80000000000)] := by decide

/-- Section 2.3 row 16: only CFG_VALID changes. -/
theorem test_release : configOf (exec .release (live .borrowed 13 0 0xFFFFFFFF [] [])) =
    some (false, .borrowed, 13, 0, 0xFFFFFFFF) := by decide

/-- 41_packed_array.md R113: no word of a released owned structure has a stated value. -/
theorem test_release_owned : oramOf (exec .release tinyOwned) = some [] := by decide

/-- V-A2 (a): the PW = 3 instance. -/
theorem test_rank : responseOf (exec (.rank 5) { State.reset with params := { Config.block with pw := 3 } }) = some ⟨.ok, 2⟩ ∧
    responseOf (exec (.rank 8) { State.reset with params := { Config.block with pw := 3 } }) = some ⟨.range, 0⟩ := by decide +kernel

/-- V-R1, other pattern widths: PW = 3 with WB = 8. -/
theorem test_prom : prom tiny = [(0, 0x04), (1, 0xA2), (2, 0x93)] ∧
    prom { Config.block with pw := 3 } = [(0, 0x04A2930000000000)] := by decide +kernel

/-- Section 2.4. -/
theorem test_popcnt : responseOf (exec (.popcnt 0xFFFFFFFFFFFFFFFF) State.reset) = some ⟨.ok, 64⟩ ∧
    responseOf (exec (.popcnt 0x0123456789ABCDEF) State.reset) = some ⟨.ok, 32⟩ := by decide

/-- Section 2.4, the intermediate words after steps 2 and 3 of the first row. -/
theorem test_swar : swarSteps 64 3 0x0123456789ABCDEF = 0x0103030503050507 ∧
    swarSteps 64 4 0x0123456789ABCDEF = 0x000400080008000C := by decide

/-- V-P2: the tail bits and the next word keep their ones; and V-P1. -/
theorem test_pctfill : xmemOf (exec (.pctfill 3 0x100)
      { State.reset with xmem := [(0x100, 0xFFFFFFFFFFFFFFFF), (0x101, 0xFFFFFFFFFFFFFFFF)] }) =
    some [(0x100, 0x04A293FFFFFFFFFF), (0x101, 0xFFFFFFFFFFFFFFFF)] ∧
    configOf (exec (.pctfill 3 0x100) State.reset) = some (true, .borrowed, 3, 8, 0x100) := by decide +kernel

/-- Section 2.6, failures: WIDTH before BASE, and b + n = 2^32 + 1. -/
theorem test_pctfill_fails : responseOf (exec (.pctfill 32 0) State.reset) = some ⟨.width, 0⟩ ∧
    responseOf (exec (.pctfill 0 0xFFFFFFFFFFFFFFFF) State.reset) = some ⟨.width, 0⟩ ∧
    responseOf (exec (.pctfill 31 0xC2000001) State.reset) = some ⟨.base, 0⟩ := by decide

/-- Section 2.7: every reserved op, in a live state, responds (E_ILLEGAL, 0) and keeps the registers. -/
theorem test_reserved : ∀ i ∈ [Instr.reserved0, .reserved9, .reservedA, .reservedB, .reservedC, .reservedD, .reservedE, .reservedF],
    responseOf (exec i stateG1) = some ⟨.illegal, 0⟩ ∧ configOf (exec i stateG1) = some (true, .borrowed, 13, 10, 0x1000) := by
  decide

/-! ### The step and the ports -/

/-- `withFetchWord` runs the word next. -/
theorem test_withFetchWord :
    responseOf (step (State.reset.withFetchWord 112 0x7_00_00000000_00000000000000F0)) = some ⟨.ok, 4⟩ ∧
    responseOf (step (State.reset.withFetchWord 4 0x3)) = some ⟨.noCfg, 0⟩ := by decide

/-- 60_exceptions.md R170: the response word of (E_BASE, 0) and of (OK, 64). -/
theorem test_response_word : Response.word 64 ⟨.base, 0⟩ = 0x5_0000000000000000 ∧
    Response.word 64 ⟨.ok, 64⟩ = 64 ∧ Response.ofWord 64 0x7_0000000000000000 = none := by decide

/-- 20_memory.md R64: a GET after a host write to the buffer's last word reads it (element 3 is stream positions 15 to 19: the last
bit of word 254, which is 0, then the top four bits of word 255). -/
theorem test_get_after_host_write :
    responseOf (exec (.get 3) (tinyBorrowed.setXmemWord 255 0xA0)) = some ⟨.ok, 10⟩ := by decide

/-- 20_memory.md R64: a host write between commands. -/
theorem test_host_write : xmemOf (step { tinyReset with input := [.write 255 7] }) = some [(255, 7)] := by decide

/-- 70_reset_and_hazards.md R193: a reset while a GET is in flight gives no response and leaves XMEM as it was. -/
theorem test_reset_during_get : xmemOf (step { tinyBusy with input := [.reset] }) = some tinyBorrowed.xmem ∧
    responseOf (step { tinyBusy with input := [.reset] }) = none := by decide

/-! ### Witnesses: concrete inputs that meet the hypotheses of each statement, one for each clause -/

theorem witness_DecodeOfEncodeIsIdentity :
    (Instr.cfgb 255 (2 ^ 32 - 1) (2 ^ 64 - 1)).wellFormed Config.block = true ∧
    (Instr.write (2 ^ 4 - 1) (2 ^ 8 - 1)).wellFormed tiny = true := by decide

theorem witness_OpFieldSelectsTheCommand :
    (∀ op ∈ List.range 16, assemble Config.block op 255 (2 ^ 32 - 1) (2 ^ 64 - 1) < 2 ^ (12 + 32 + 64) ∧
      op = assemble Config.block op 255 (2 ^ 32 - 1) (2 ^ 64 - 1) / 2 ^ (64 + 32 + 8)) ∧
    assemble Config.block 15 255 (2 ^ 32 - 1) (2 ^ 64 - 1) = 2 ^ 108 - 1 := by decide

theorem witness_ResponseWordCarriesStatusAndData :
    (⟨.ok, 2 ^ 8 - 1⟩ : Response).data < 2 ^ 8 ∧
    (2 ^ 11 - 1 < 2 ^ (8 + 3) ∧ (2 ^ 11 - 1) / 2 ^ 8 = 7) ∧
    (7 * 2 ^ 8 - 1 < 2 ^ (8 + 3) ∧ (7 * 2 ^ 8 - 1) / 2 ^ 8 ≠ 7) := by decide

theorem witness_StepRunsTheDecodedCommand :
    (tinyReset.present 5).phase = .idle ∧ (tinyReset.present 5).input = .command 5 :: [] ∧
    tinyBusy.phase = .busy (encode tiny (.get 1)) ∧ tinyBusy.input.head? ≠ some .reset := by decide

theorem witness_AcceptThenCompleteIsOneAtomicCommand :
    ({ tinyOwned with input := [.accept 5, .write 0 1] } : State).phase = .idle ∧
    ({ tinyOwned with input := [.accept 5, .write 0 1] } : State).input = .accept 5 :: [.write 0 1] ∧
    [HostEvent.write 0 1].head? ≠ some .reset := by decide

theorem witness_ResetSetsEveryRegister :
    ({ tinyOwned with input := [.reset] } : State).phase = .idle ∧
    ({ tinyOwned with input := [.reset] } : State).input = .reset :: [] := by decide

theorem witness_ResetDuringACommandAbandonsIt :
    ({ tinyBorrowed with phase := .busy (encode tiny (.write 1 0)), input := [.reset] } : State).phase =
      .busy (encode tiny (.write 1 0)) ∧
    ({ tinyBorrowed with phase := .busy (encode tiny (.write 1 0)), input := [.reset] } : State).input = .reset :: [] ∧
    xmWrites (decode tiny (encode tiny (.write 1 0)))
      { tinyBorrowed with phase := .busy (encode tiny (.write 1 0)), input := [.reset] } = [(253, 0xA8), (254, 0)] ∧
    (∀ v ∈ List.range 256, (255, v) ∉ xmWrites (decode tiny (encode tiny (.write 1 0)))
      { tinyBorrowed with phase := .busy (encode tiny (.write 1 0)), input := [.reset] }) := by decide +kernel

theorem witness_HostWriteIsSeenByTheNextCommand :
    ({ tinyOwned with input := [.write 255 7] } : State).phase = .idle ∧
    ({ tinyOwned with input := [.write 255 7] } : State).input = .write 255 7 :: [] ∧
    255 < 2 ^ ({ tinyOwned with input := [.write 255 7] } : State).params.xaddrBits ∧
    ({ tinyOwned with input := [.write 255 7] } : State).mode = .owned := by decide

/-- The borrowed clauses: a write to the last word of the buffer, with a command to come. -/
theorem witness_HostWriteIsSeenByTheNextCommand_borrowed :
    ({ tinyBorrowed with input := [.write 255 255, .command (encode tiny (.get 3))] } : State).Inv ∧
    ({ tinyBorrowed with input := [.write 255 255, .command (encode tiny (.get 3))] } : State).input =
      .write 255 255 :: [.command (encode tiny (.get 3))] ∧
    tinyBorrowed.mode = .borrowed ∧ 255 < 2 ^ tiny.xaddrBits ∧ 255 < 2 ^ tiny.wb ∧ tinyBorrowed.cfgValid = true ∧
    3 < tinyBorrowed.cap ∧ tinyBorrowed.base + 2 = 255 :=
  ⟨by constructor <;> decide, by decide⟩

theorem witness_BusyBlockAnswersInOneStep :
    tinyBusy.Inv ∧ tinyBusy.phase = .busy (encode tiny (.get 1)) ∧ tinyBusy.input.head? ≠ some .reset :=
  ⟨tinyBusy_inv, by decide, by decide⟩

theorem witness_EveryPresentedCommandIsAnswered :
    ({ tinyOwned with input := [5, encode tiny (.get 2)].map .command } : State).Inv ∧
    ({ tinyOwned with input := [5, encode tiny (.get 2)].map .command } : State).phase = .idle ∧
    [5, encode tiny (.get 2)][1]? = some (encode tiny (.get 2)) :=
  ⟨by constructor <;> decide, by decide⟩

theorem witness_StepKeepsTheLegalStates :
    ∃ t, ({ tinyOwned with input := [.command (encode tiny (.write 2 0x7F))] } : State).Inv ∧
      step { tinyOwned with input := [.command (encode tiny (.write 2 0x7F))] } = .next t :=
  ⟨_, by constructor <;> decide, rfl⟩

theorem witness_LegalStatesNeverFault : tinyOwned.Inv ∧ tinyBorrowed.Inv := ⟨tinyOwned_inv, tinyBorrowed_inv⟩

theorem witness_EveryCommandKeepsTheConfigurationInvariant :
    (tinyOwned.cfgValid = true → (1 ≤ tinyOwned.fw ∧ tinyOwned.fw ≤ tinyOwned.params.wb) ∧
      (tinyOwned.mode = .owned → tinyOwned.nw ≤ tinyOwned.params.ownedWords) ∧
      (tinyOwned.mode = .borrowed → tinyOwned.base + tinyOwned.nw ≤ 2 ^ tinyOwned.params.xaddrBits)) ∧
    (∃ t, exec (.cfgb 5 4 253) tinyOwned = .next t ∧ t.cfgValid = true ∧ t.mode = .borrowed ∧
      3 < t.cap ∧ 2 ∈ spanWords t.params.wb t.fw 3) ∧
    ∃ t, exec (.cfgo 8 4) tinyOwned = .next t ∧ t.cfgValid = true ∧ t.mode = .owned ∧ t.nw = t.params.ownedWords :=
  ⟨by decide, ⟨_, rfl, by decide⟩, ⟨_, rfl, by decide⟩⟩

theorem witness_NoStepChangesPromOrParameters : ∃ t, step { tinyBusy with input := [.reset] } = .next t := ⟨_, rfl⟩

/-- A command that completes with each status. -/
theorem witness_AFailingCommandHasNoEffect :
    responseOf (exec (.get 2) tinyOwned) = some ⟨.ok, 10⟩ ∧
    responseOf (exec .reservedF tinyOwned) = some ⟨.illegal, 0⟩ ∧
    responseOf (exec (.get 0) tinyReset) = some ⟨.noCfg, 0⟩ ∧
    responseOf (exec (.pctfill 4 0) tinyOwned) = some ⟨.width, 0⟩ ∧
    responseOf (exec (.cfgo 8 5) tinyOwned) = some ⟨.space, 0⟩ ∧
    responseOf (exec (.cfgb 8 2 255) tinyOwned) = some ⟨.base, 0⟩ ∧
    responseOf (exec (.rank 8) tinyOwned) = some ⟨.range, 0⟩ := by decide

theorem witness_OnlyTheNamedCommandsWriteAConfigurationRegister :
    (∃ t, exec (.cfgo 7 3) tinyReset = .next t ∧ t.cfgValid ≠ tinyReset.cfgValid ∧ t.cfgValid = true) ∧
    (∃ t, exec .release tinyOwned = .next t ∧ t.cfgValid ≠ tinyOwned.cfgValid ∧ t.cfgValid = false) ∧
    (∃ t, exec (.cfgb 5 4 253) tinyOwned = .next t ∧
      t.mode ≠ tinyOwned.mode ∧ t.fw ≠ tinyOwned.fw ∧ t.cap ≠ tinyOwned.cap ∧ t.base ≠ tinyOwned.base) :=
  ⟨⟨_, rfl, by decide⟩, ⟨_, rfl, by decide⟩, ⟨_, rfl, by decide⟩⟩

theorem witness_OnlyTheNamedCommandsChangeStorage :
    (∃ t, exec (.write 3 0) tinyBorrowed = .next t ∧ xmemWord t 255 ≠ xmemWord tinyBorrowed 255) ∧
    ∃ t, exec (.cfgo 8 4) tinyReset = .next t ∧ Memory.lookup t.oram 3 = some 0 ∧ Memory.lookup tinyReset.oram 3 ≠ some 0 :=
  ⟨⟨_, rfl, by decide⟩, ⟨_, rfl, by decide⟩⟩

theorem witness_ReadingCommandsChangeNothing :
    (∃ t, exec (.get 2) tinyOwned = .next t) ∧ (∃ t, exec (.rank 7) tinyOwned = .next t) ∧
    (∃ t, exec (.popcnt 255) tinyOwned = .next t) ∧ ∃ t, exec .reserved0 tinyOwned = .next t :=
  ⟨⟨_, rfl⟩, ⟨_, rfl⟩, ⟨_, rfl⟩, ⟨_, rfl⟩⟩

theorem witness_ReservedCommandsRespondIllegal :
    Instr.reservedF ∈
      [Instr.reserved0, .reserved9, .reservedA, .reservedB, .reservedC, .reservedD, .reservedE, .reservedF] := by decide

/-- Section 2.1 rows (7, 2), (7, 9), (16, 3): one word, two words, one word that ends on the boundary. -/
theorem witness_LocateGivesTheSpan :
    1 ≤ 7 ∧ 7 ≤ 64 ∧ spanInOneWord 64 7 2 = true ∧ spanShift 64 7 2 = 43 ∧
    spanInOneWord 64 7 9 = false ∧ spanHigh 64 7 9 = 1 ∧ spanLow 64 7 9 = 6 ∧
    spanOffset 64 16 3 + 16 = 64 ∧ 1 ≤ 64 ∧ spanOffset 64 64 5 = 0 := by decide

/-- The last index of 3 elements of 7 bits in 8-bit words straddles into the last word. -/
theorem witness_InRangeSpanLiesInTheBuffer :
    1 ≤ 7 ∧ 7 ≤ 8 ∧ 2 < 3 ∧ spanInOneWord 8 7 2 = false ∧ spanWord 8 7 2 + 1 = 2 ∧ wordCount 8 7 3 = 3 := by decide

theorem witness_ExtractAndInsertAgreeWithTheLayout :
    1 ≤ 7 ∧ 7 ≤ 8 ∧ 127 < 2 ^ 7 ∧ (∀ k : Nat, (fun _ => 255) k < 2 ^ 8) ∧
    (∀ k : Nat, (fun k => ((fieldWrites 8 7 2 127 (fun _ => 255)).lookup k).getD ((fun _ => 255) k)) k =
      ((fieldWrites 8 7 2 127 (fun _ => 255)).lookup k).getD ((fun _ => 255) k)) ∧
    (13 < 2 * 7 ∧ (2 + 1) * 7 ≤ 21) :=
  ⟨by decide, by decide, by decide, fun _ => (by decide : 255 < 2 ^ 8), fun _ => rfl, by decide⟩

/-- E_WIDTH at 0 and WB + 1, E_SPACE at OWNED_WORDS + 1 words, success at OWNED_WORDS words. -/
theorem witness_CfgoConstructsAnOwnedStructure :
    tinyReset.params.wb < 9 ∧ (5 = ceilDiv (8 * 5) tinyReset.params.wb ∧ tinyReset.params.ownedWords < 5) ∧
    (4 = ceilDiv (8 * 4) tinyReset.params.wb ∧ 4 ≤ tinyReset.params.ownedWords ∧ 3 < 4) ∧
    (0 = ceilDiv (1 * 0) tinyReset.params.wb ∧ 0 ≤ tinyReset.params.ownedWords) := by decide

/-- E_WIDTH at WB + 1, E_BASE at 2^XADDR_BITS and one word past the top, success up to the top. -/
theorem witness_CfgbConstructsABorrowedStructure :
    tinyReset.params.wb < 9 ∧ 2 ^ tinyReset.params.xaddrBits ≤ 256 ∧
    (2 = ceilDiv (8 * 2) tinyReset.params.wb ∧ 2 ^ tinyReset.params.xaddrBits < 255 + 2) ∧
    (1 = ceilDiv (8 * 1) tinyReset.params.wb ∧ 255 < 2 ^ tinyReset.params.xaddrBits ∧
      255 + 1 ≤ 2 ^ tinyReset.params.xaddrBits) := by decide

theorem witness_GetRespondsTheLayoutValue :
    tinyReset.cfgValid = false ∧ (tinyOwned.cfgValid = true ∧ tinyOwned.cap ≤ 3) ∧
    (tinyOwned.Inv ∧ tinyOwned.cfgValid = true ∧ 2 < tinyOwned.cap) ∧
    (tinyBorrowed.Inv ∧ tinyBorrowed.cfgValid = true ∧ 3 < tinyBorrowed.cap) :=
  ⟨by decide, by decide, ⟨tinyOwned_inv, by decide⟩, ⟨tinyBorrowed_inv, by decide⟩⟩

theorem witness_WriteChangesExactlyTheSpan :
    tinyReset.cfgValid = false ∧ (tinyOwned.cfgValid = true ∧ tinyOwned.cap ≤ 3) ∧
    (tinyOwned.Inv ∧ tinyOwned.cfgValid = true ∧ 2 < tinyOwned.cap ∧ tinyOwned.mode = .owned ∧
      23 < tinyOwned.nw * tinyOwned.params.wb ∧ (2 * tinyOwned.fw ≤ 20 ∧ 20 < (2 + 1) * tinyOwned.fw) ∧
      0 ∉ spanWords tinyOwned.params.wb tinyOwned.fw 2) ∧
    (tinyBorrowed.Inv ∧ tinyBorrowed.cfgValid = true ∧ 3 < tinyBorrowed.cap ∧ tinyBorrowed.mode = .borrowed ∧
      ∀ k ∈ spanWords tinyBorrowed.params.wb tinyBorrowed.fw 3, 3 ≠ tinyBorrowed.base + k) :=
  ⟨by decide, by decide, ⟨tinyOwned_inv, by decide⟩, ⟨tinyBorrowed_inv, by decide⟩⟩

theorem witness_ReleaseEndsTheStructure :
    (tinyOwned.cfgValid = true ∧ tinyOwned.mode = .owned) ∧ tinyBorrowed.mode = .borrowed ∧ tinyReset.cfgValid = false := by
  decide

theorem witness_WriteThenGetReturnsTheTruncatedValue :
    (tinyOwned.Inv ∧ tinyOwned.cfgValid = true ∧ 2 < tinyOwned.cap ∧ 127 < 2 ^ tinyOwned.fw) ∧
    (tinyBorrowed.Inv ∧ tinyBorrowed.cfgValid = true ∧ 3 < tinyBorrowed.cap) :=
  ⟨⟨tinyOwned_inv, by decide⟩, ⟨tinyBorrowed_inv, by decide⟩⟩

theorem witness_WriteDoesNotInterfereWithOtherIndices :
    tinyOwned.Inv ∧ tinyOwned.cfgValid = true ∧ 1 < tinyOwned.cap ∧ 2 < tinyOwned.cap ∧ 2 ≠ 1 ∧
    tinyOwned.fw * tinyOwned.cap ≤ 21 ∧ 23 < tinyOwned.nw * tinyOwned.params.wb :=
  ⟨tinyOwned_inv, by decide⟩

theorem witness_FreshOwnedStructureReadsZero :
    1 ≤ 8 ∧ 8 ≤ tinyOwned.params.wb ∧ ceilDiv (8 * 4) tinyOwned.params.wb ≤ tinyOwned.params.ownedWords ∧ 3 < 4 := by decide

theorem witness_SwarLanesHoldTheirPopcounts :
    tiny.Valid ∧ Config.block.Valid ∧ 255 < 2 ^ tiny.wb ∧ (3 ≤ Nat.log2 tiny.wb ∧ 0 * 2 ^ 3 < tiny.wb) ∧
    (0 ≤ Nat.log2 tiny.wb ∧ 7 * 2 ^ 0 < tiny.wb) ∧ 2 < Nat.log2 tiny.wb := by decide

theorem witness_PopcountOfAPatternFitsItsWidth : 1 ≤ 1 ∧ 1 < 2 ^ 1 := by decide

theorem witness_PopcntRespondsThePopulationCount : tinyOwned.params.Valid ∧ 255 < 2 ^ tinyOwned.params.wb := by decide

/-- The default instance has no tail; the PW = 3 instance of V-A2 has 40 tail bits. -/
theorem witness_PromHoldsThePopcountTable :
    ({ Config.block with pw := 3 } : Params).Valid ∧ 7 < 2 ^ 3 ∧
    (3 * 2 ^ 3 ≤ 63 ∧ 63 < promWords { Config.block with pw := 3 } * 64) := by decide

theorem witness_RankRespondsThePopcountOfThePattern :
    tinyReset.params.Valid ∧ 7 < 2 ^ tinyReset.params.pw ∧ 2 ^ tinyReset.params.pw ≤ 8 := by decide

/-- E_WIDTH at 0 and PCT_WMAX + 1, E_BASE at 2^XADDR_BITS and one word past the top, success up to the top. -/
theorem witness_PctfillMakesTheTableLive :
    min tinyReset.params.wb (tinyReset.params.idxBits - 1) < 4 ∧
    (3 ≤ min tinyReset.params.wb (tinyReset.params.idxBits - 1) ∧ 3 = ceilDiv (3 * 2 ^ 3) tinyReset.params.wb) ∧
    2 ^ tinyReset.params.xaddrBits ≤ 256 ∧ 2 ^ tinyReset.params.xaddrBits < 254 + 3 ∧
    (253 < 2 ^ tinyReset.params.xaddrBits ∧ 253 + 3 ≤ 2 ^ tinyReset.params.xaddrBits) := by decide

/-- Width 3 = PW at the top of XMEM, and width 1, whose word has tail bits. -/
theorem witness_PctfillBuildsThePopcountTable :
    tinyOwned.Inv ∧
    (3 = ceilDiv (3 * 2 ^ 3) tinyOwned.params.wb ∧ 1 ≤ 3 ∧ 3 ≤ min tinyOwned.params.wb (tinyOwned.params.idxBits - 1) ∧
      253 < 2 ^ tinyOwned.params.xaddrBits ∧ 253 + 3 ≤ 2 ^ tinyOwned.params.xaddrBits ∧ 3 = tinyOwned.params.pw ∧
      23 < 3 * 2 ^ 3 ∧ 7 < 2 ^ 3 ∧ 252 < 253) ∧
    (1 = ceilDiv (1 * 2 ^ 1) tinyOwned.params.wb ∧ 1 ≤ min tinyOwned.params.wb (tinyOwned.params.idxBits - 1) ∧
      1 * 2 ^ 1 ≤ 7 ∧ 7 < 1 * tinyOwned.params.wb ∧ 0 + 1 ≤ 1) :=
  ⟨tinyOwned_inv, by decide, by decide⟩

theorem witness_AccessesOfGetAndWrite :
    (min tinyOwned.params.wb (tinyOwned.params.idxBits - 1) < 4 ∧ 2 ^ tinyOwned.params.xaddrBits ≤ 256 ∧
      2 ^ tinyOwned.params.xaddrBits < 254 + ceilDiv (3 * 2 ^ 3) tinyOwned.params.wb) ∧
    tinyOwned.mode = .owned ∧ tinyReset.cfgValid = false ∧ tinyBorrowed.cap ≤ 4 ∧
    (tinyBorrowed.mode = .borrowed ∧ tinyBorrowed.cfgValid = true ∧ 0 < tinyBorrowed.cap ∧
      spanInOneWord tinyBorrowed.params.wb tinyBorrowed.fw 0 = true) ∧
    (tinyBorrowed.mode = .borrowed ∧ tinyBorrowed.cfgValid = true ∧ 3 < tinyBorrowed.cap ∧
      spanInOneWord tinyBorrowed.params.wb tinyBorrowed.fw 3 = false) := by decide

/-- The PW = 3 table at the top of XMEM, whose patterns 2 and 5 straddle (95_test_vectors.md V-R1): 20 accesses. -/
theorem witness_AccessesOfPctfill :
    1 ≤ 3 ∧ 3 ≤ min tinyOwned.params.wb (tinyOwned.params.idxBits - 1) ∧ 253 < 2 ^ tinyOwned.params.xaddrBits ∧
    253 + ceilDiv (3 * 2 ^ 3) tinyOwned.params.wb ≤ 2 ^ tinyOwned.params.xaddrBits ∧
    (xmAccesses (.pctfill 3 253) tinyOwned).length = 20 := by decide +kernel

theorem witness_PortWritesAreDoneWhenTheCommandResponds :
    (∃ t, exec (.write 3 0) tinyBorrowed = .next t) ∧ (xmWrites (.write 3 0) tinyBorrowed).map Prod.fst = [254, 255] :=
  ⟨⟨_, rfl⟩, by decide⟩

theorem witness_AccessesStayInsideTheBuffer :
    tinyBorrowed.Inv ∧ (∃ t, exec (.get 3) tinyBorrowed = .next t) ∧ XmAccess.read 255 ∈ xmAccesses (.get 3) tinyBorrowed ∧
    (∃ t, exec (.pctfill 1 255) tinyBorrowed = .next t) ∧ XmAccess.read 255 ∈ xmAccesses (.pctfill 1 255) tinyBorrowed :=
  ⟨tinyBorrowed_inv, ⟨_, rfl⟩, by decide, ⟨_, rfl⟩, by decide⟩

end Sys2Proof.Tests
end

section
/-! The words an in-range index touches, and the bounds of the values fields carry (41_packed_array.md R102, R103, R104). -/

namespace Sys2Proof.Machine

theorem spanInOneWord_eq_false_iff {wb fw i : Nat} : spanInOneWord wb fw i = false ↔ wb < spanOffset wb fw i + fw := by
  simp [spanInOneWord]

/-- Every word an in-range index touches is a word of the buffer (41_packed_array.md R102). -/
theorem lt_wordCount_of_mem_spanWords {wb fw cap i k : Nat} (h1 : 1 ≤ fw) (h2 : fw ≤ wb) (hi : i < cap)
    (hk : k ∈ spanWords wb fw i) : k < wordCount wb fw cap := by
  have start := span_start wb fw i
  have fieldEnd : i * fw + fw ≤ fw * cap :=
    calc i * fw + fw = fw * (i + 1) := by ring
      _ ≤ fw * cap := Nat.mul_le_mul_left fw hi
  rw [wordCount, lt_ceilDiv_iff (by omega)]
  rcases mem_spanWords.1 hk with rfl | ⟨htwo, rfl⟩
  · omega
  · have straddles := spanInOneWord_eq_false_iff.1 htwo
    rw [Nat.add_one_mul]
    omega

/-- extract(i) over WB-bit words is an FW-bit value (41_packed_array.md R103). -/
theorem extractField_lt {wb fw i : Nat} {rd : Nat → Nat} (h1 : 1 ≤ fw) (h2 : fw ≤ wb) (hr : ∀ k, rd k < 2 ^ wb) :
    extractField wb fw i rd < 2 ^ fw := by
  have ho := spanOffset_lt (wb := wb) fw i (by omega)
  unfold extractField
  cases hone : spanInOneWord wb fw i
  · have straddles := spanInOneWord_eq_false_iff.1 hone
    have split : spanHigh wb fw i + spanLow wb fw i = fw := by unfold spanLow spanHigh; omega
    have high : (rd (spanWord wb fw i) &&& mask (spanHigh wb fw i)) <<< spanLow wb fw i < 2 ^ fw := by
      rw [Nat.shiftLeft_eq, show 2 ^ fw = 2 ^ spanHigh wb fw i * 2 ^ spanLow wb fw i by rw [← Nat.pow_add, split]]
      exact Nat.mul_lt_mul_of_pos_right (Nat.lt_of_le_of_lt Nat.and_le_right (mask_lt _)) (Nat.two_pow_pos _)
    have low : rd (spanWord wb fw i + 1) >>> (wb - spanLow wb fw i) < 2 ^ spanLow wb fw i := by
      rw [Nat.shiftRight_eq_div_pow, Nat.div_lt_iff_lt_mul (Nat.two_pow_pos _), ← Nat.pow_add,
        show spanLow wb fw i + (wb - spanLow wb fw i) = wb by omega]
      exact hr _
    exact Nat.or_lt_two_pow high (Nat.lt_of_lt_of_le low (Nat.pow_le_pow_right (by decide) (by omega)))
  · exact Nat.lt_of_le_of_lt Nat.and_le_right (mask_lt fw)

/-- Overwriting words below a bound by writes below it leaves words below it. -/
theorem getD_lookup_lt {ws : List (Nat × Nat)} {n d : Nat} (hw : ∀ c ∈ ws, c.2 < n) (hd : d < n) (k : Nat) :
    (ws.lookup k).getD d < n := by
  cases h : ws.lookup k with
  | none => exact hd
  | some v =>
    obtain ⟨l, r, rfl, -⟩ := List.lookup_eq_some_iff.1 h
    exact hw (k, v) (by simp)

end Sys2Proof.Machine
end

section
/-! The SWAR fold never exceeds its operand, so an entry of the popcount table fits the pattern's width and a POPCNT response fits
a word (42_popcount_table.md R140 to R143). -/

namespace Sys2Proof.Machine

/-- The bits of the lane mask are the low halves of the lanes (42_popcount_table.md R140). -/
theorem testBit_laneMaskBelow (k n b : Nat) :
    (laneMaskBelow k n).testBit b = (decide (b < n) && decide (b % 2 ^ (k + 1) < 2 ^ k)) := by
  induction n with
  | zero => simp [laneMaskBelow]
  | succ n ih =>
    have below := laneMaskBelow_lt k n
    have value : laneMaskBelow k (n + 1) = laneMaskBelow k n ||| (if n % 2 ^ (k + 1) < 2 ^ k then 2 ^ n else 0) := by
      rw [laneMaskBelow]
      split_ifs
      · rw [Nat.add_comm, Nat.lor_comm]
        simpa using Nat.two_pow_add_eq_or_of_lt below 1
      · simp
    rw [value, Nat.testBit_lor, ih]
    rcases Nat.lt_trichotomy b n with hb | rfl | hb
    · split_ifs <;> simp [hb, Nat.lt_succ_of_lt hb, hb.ne']
    · split_ifs with hl <;> simp [hl]
    · split_ifs <;> simp [hb.ne, Nat.not_lt.2 hb.le, Nat.not_lt.2 hb]

/-- A position half a lane above a low half lies in a high half. -/
theorem not_mod_lt_of_sub_mod_lt {b h : Nat} (hb : h ≤ b) (hl : (b - h) % (2 * h) < h) : ¬ b % (2 * h) < h := by
  have e : b % (2 * h) = (b - h) % (2 * h) + h := by
    rw [← Nat.mod_eq_of_lt (show (b - h) % (2 * h) + h < 2 * h by omega), Nat.mod_add_mod, Nat.sub_add_cancel hb]
  omega

/-- The lane mask moved up by half a lane has no bit of the mask. -/
theorem laneMask_and_shifted (wb k : Nat) : laneMask wb k &&& (laneMask wb k <<< 2 ^ k) = 0 := by
  apply Nat.eq_of_testBit_eq
  intro b
  rw [Nat.zero_testBit, Nat.testBit_land, Nat.testBit_shiftLeft]
  unfold laneMask
  rw [testBit_laneMaskBelow, testBit_laneMaskBelow, Nat.pow_succ']
  by_cases hb : 2 ^ k ≤ b
  · have apart := not_mod_lt_of_sub_mod_lt hb
    simp only [Bool.and_eq_false_imp, Bool.and_eq_true, decide_eq_true_eq, decide_eq_false_iff_not, and_imp]
    exact fun _ low _ _ moved => apart moved low
  · simp [hb]

/-- Numbers without a common bit add without a carry. -/
theorem add_eq_or_of_and_eq_zero {a b : Nat} (h : a &&& b = 0) : a + b = a ||| b := by
  have hlt : a + b < 2 ^ (a + b) := Nat.lt_two_pow_self
  have e := BitVec.add_eq_or_of_and_eq_zero (BitVec.ofNat (a + b) a) (BitVec.ofNat (a + b) b) (by
    rw [← BitVec.ofNat_and, h])
  have e := congrArg BitVec.toNat e
  simpa [Nat.mod_eq_of_lt, hlt, show a < 2 ^ (a + b) by omega, show b < 2 ^ (a + b) by omega] using e

/-- Adding the bits of a mask and the bits that the mask selects `n` places up, moved down, does not exceed the operand. -/
theorem and_add_shiftRight_and_le {m n : Nat} (hm : m &&& (m <<< n) = 0) (x : Nat) : (x &&& m) + ((x >>> n) &&& m) ≤ x := by
  have high : ((x >>> n) &&& m) <<< n = x &&& (m <<< n) := by
    apply Nat.eq_of_testBit_eq
    intro b
    by_cases hb : n ≤ b <;> simp [hb, Nat.testBit_shiftLeft]
  have disjoint : (x &&& m) &&& (x &&& (m <<< n)) = 0 := by
    rw [Nat.and_assoc, Nat.and_left_comm m x, hm, Nat.and_zero, Nat.and_zero]
  calc (x &&& m) + ((x >>> n) &&& m)
    _ ≤ (x &&& m) + ((x >>> n) &&& m) <<< n :=
      Nat.add_le_add_left (by rw [Nat.shiftLeft_eq]; exact Nat.le_mul_of_pos_right _ (Nat.two_pow_pos n)) _
    _ = x &&& (m ||| (m <<< n)) := by rw [high, add_eq_or_of_and_eq_zero disjoint, Nat.and_or_distrib_left]
    _ ≤ x := Nat.and_le_left

/-- One step of the fold does not exceed its operand. -/
theorem swarStep_le (wb k x : Nat) : swarStep wb k x ≤ x :=
  Nat.le_trans (Nat.mod_le _ _) (and_add_shiftRight_and_le (laneMask_and_shifted wb k) x)

/-- The fold does not exceed its operand. -/
theorem swarPopcount_le (wb x : Nat) : swarPopcount wb x ≤ x := by
  unfold swarPopcount
  induction Nat.log2 wb with
  | zero => exact Nat.le_refl x
  | succ k ih => exact Nat.le_trans (swarStep_le wb k _) ih

/-- Every word of the popcount table is a WB-bit word (42_popcount_table.md R146). -/
theorem promFill_word_lt {wb w n : Nat} (h1 : 1 ≤ w) (h2 : w ≤ wb) (hn : n ≤ 2 ^ w) (k : Nat) :
    Memory.word (promFill wb w n) k < 2 ^ wb := by
  induction n generalizing k with
  | zero => exact Nat.two_pow_pos wb
  | succ i ih =>
    have old : ∀ k, Memory.word (promFill wb w i) k < 2 ^ wb := ih (by omega)
    have entry : swarPopcount wb i < 2 ^ w := Nat.lt_of_le_of_lt (swarPopcount_le wb i) hn
    rw [promFill, Memory.word_setWords _ _ (by rw [fieldWrites_addresses]; exact spanWords_nodup _ _ _)]
    exact getD_lookup_lt (fieldWrites_lt h1 h2 entry old) (old k) k

theorem promWord_lt {p : Params} (hp : p.Valid) (k : Nat) : promWord p k < 2 ^ p.wb := by
  obtain ⟨-, -, -, -, -, -, -, h1, h2, -⟩ := hp
  exact promFill_word_lt h1 h2 (Nat.le_refl _) k

end Sys2Proof.Machine
end

section
/-! What a command that goes on has done, said once for all commands, and what follows for the parameters and the configuration
registers (10_state.md R23 to R28, R31). -/

namespace Sys2Proof.Machine

/-- The status a command's checks give it (60_exceptions.md R170 to R172). -/
def commandStatus (s : State) : Instr → Status
  | .cfgo w c => cfgoStatus s.params w c
  | .cfgb w c b => cfgbStatus s.params w c b
  | .get j => accessStatus s j
  | .write j _ => accessStatus s j
  | .release => .ok
  | .rank x => rankStatus s.params x
  | .popcnt _ => .ok
  | .pctfill w b => pctfillStatus s.params w b
  | .reserved0 | .reserved9 | .reservedA | .reservedB | .reservedC | .reservedD | .reservedE | .reservedF => .illegal

/-- The ways a command takes `s` to a next state, one constructor for each command that can succeed and one for every failure. -/
inductive CommandEffect (s : State) : Instr → State → Prop where
  /-- A command whose checks fail, or a reserved command (60_exceptions.md R170, 30_encoding.md R81). -/
  | fails (i : Instr) (failed : commandStatus s i ≠ .ok) : CommandEffect s i (s.addResponse ⟨commandStatus s i, 0⟩)
  | get (j : Nat) (ok : accessStatus s j = .ok) : CommandEffect s (.get j) (s.addResponse ⟨.ok, readField s j⟩)
  | rank (x : Nat) (ok : rankStatus s.params x = .ok) :
      CommandEffect s (.rank x) (s.addResponse ⟨.ok, extractField s.params.wb s.params.pw x (promWord s.params)⟩)
  | popcnt (x : Nat) : CommandEffect s (.popcnt x) (s.addResponse ⟨.ok, swarPopcount s.params.wb x⟩)
  | write (j v : Nat) (ok : accessStatus s j = .ok) :
      CommandEffect s (.write j v) ((s.insertField j (trunc s.fw v)).addResponse ⟨.ok, 0⟩)
  | release : CommandEffect s .release (s.retire.addResponse ⟨.ok, 0⟩)
  | cfgo (w c : Nat) (ok : cfgoStatus s.params w c = .ok) :
      CommandEffect s (.cfgo w c) (((s.install .owned w c s.base).zeroFill (wordCount s.params.wb w c)).addResponse ⟨.ok, 0⟩)
  | cfgb (w c b : Nat) (ok : cfgbStatus s.params w c b = .ok) :
      CommandEffect s (.cfgb w c b) ((s.install .borrowed w c b).addResponse ⟨.ok, 0⟩)
  | pctfill (w b : Nat) (ok : pctfillStatus s.params w b = .ok) :
      CommandEffect s (.pctfill w b) (((s.install .borrowed w (2 ^ w) b).fillTable (2 ^ w)).addResponse ⟨.ok, 0⟩)

/-- Every command that goes on has one of the effects. -/
theorem exec_effect {s t : State} {i : Instr} (h : exec i s = .next t) : CommandEffect s i t := by
  cases i with
  | cfgo w c =>
    rcases execCfgo_cases h with ⟨ok, rfl⟩ | ⟨failed, rfl⟩
    · exact .cfgo w c ok
    · exact .fails _ failed
  | cfgb w c b =>
    rcases execCfgb_cases h with ⟨ok, rfl⟩ | ⟨failed, rfl⟩
    · exact .cfgb w c b ok
    · exact .fails _ failed
  | get j =>
    rcases execGet_cases h with ⟨ok, -, rfl⟩ | ⟨failed, rfl⟩
    · exact .get j ok
    · exact .fails _ failed
  | write j v =>
    rcases execWrite_cases h with ⟨ok, -, rfl⟩ | ⟨failed, rfl⟩
    · exact .write j v ok
    · exact .fails _ failed
  | release => exact next_injective h ▸ .release
  | rank x =>
    rcases execRank_cases h with ⟨ok, rfl⟩ | ⟨failed, rfl⟩
    · exact .rank x ok
    · exact .fails _ failed
  | popcnt x => exact next_injective h ▸ .popcnt x
  | pctfill w b =>
    rcases execPctfill_cases h with ⟨ok, rfl⟩ | ⟨failed, rfl⟩
    · exact .pctfill w b ok
    · exact .fails _ failed
  | reserved0 | reserved9 | reservedA | reservedB | reservedC | reservedD | reservedE | reservedF =>
    cases next_injective h
    exact .fails _ (by simp [commandStatus])

/-! ### The parameters -/

/-- No command changes the parameters (00_scope.md section 3). -/
theorem CommandEffect.params {s t : State} {i : Instr} (h : CommandEffect s i t) : t.params = s.params := by
  cases h <;> simp

/-- A host write that goes on writes one word of XMEM (20_memory.md R64). -/
theorem hostWrite_cases {a v : Nat} {s t : State} (h : hostWrite a v s = .next t) :
    a < 2 ^ s.params.xaddrBits ∧ t = s.setXmemWord a v := by
  unfold hostWrite at h
  split_ifs at h with ha
  exact ⟨ha, (next_injective h).symm⟩

/-- No step changes the parameters (00_scope.md section 3). -/
theorem step_params {s t : State} (h : step s = .next t) : t.params = s.params := by
  rcases step_cases h with ⟨-, -, rfl⟩ | ⟨_, _, -, -, he⟩ | ⟨_, _, -, -, rfl⟩ | ⟨_, _, _, -, -, hw⟩ | ⟨_, -, -, rfl⟩ |
    ⟨_, _, -, -, rfl⟩ | ⟨_, -, -, he⟩
  · rfl
  · exact (exec_effect he).params
  · rfl
  · obtain ⟨-, rfl⟩ := hostWrite_cases hw
    rfl
  · rfl
  · rfl
  · exact (exec_effect he).params

/-- Settles O16: no step changes the parameters, and PROM is a function of them. -/
theorem noStepChangesPromOrParameters : Obligations.NoStepChangesPromOrParameters :=
  fun _ _ h => ⟨step_params h, fun k => by rw [step_params h]⟩

/-! ### The configuration registers -/

/-- Settles O18, by the effects of the commands. -/
theorem onlyTheNamedCommandsWriteAConfigurationRegister : Obligations.OnlyTheNamedCommandsWriteAConfigurationRegister := by
  intro s t i h
  cases exec_effect h with
  | fails | get | rank | popcnt | write => simp
  | release => simp
  | cfgo | cfgb | pctfill => simp

/-- The configuration invariant of 10_state.md R28, without the register widths. -/
def State.ConfigOk (s : State) : Prop :=
  s.cfgValid = true → (1 ≤ s.fw ∧ s.fw ≤ s.params.wb) ∧ (s.mode = .owned → s.nw ≤ s.params.ownedWords) ∧
    (s.mode = .borrowed → s.base + s.nw ≤ 2 ^ s.params.xaddrBits)

theorem State.Inv.configOk {s : State} (h : s.Inv) : s.ConfigOk :=
  fun hc => ⟨h.widthLegal hc, h.ownedFits hc, h.borrowedFits hc⟩

/-- The configuration invariant depends on the configuration registers alone. -/
theorem State.ConfigOk.of_sameConfig {s t : State} (hs : s.ConfigOk) (hc : s.sameConfig t) (hp : t.params = s.params) :
    t.ConfigOk := by
  obtain ⟨cfgValid, mode, fw, cap, base⟩ := hc
  unfold State.ConfigOk State.nw
  rw [cfgValid, mode, fw, cap, base, hp]
  exact hs

/-- insert(i, v) changes no configuration register (41_packed_array.md R104). -/
theorem insertField_sameConfig (s : State) (i v : Nat) : s.sameConfig (s.insertField i v) := by simp [State.sameConfig]

/-- The loop of PCTFILL changes no configuration register (42_popcount_table.md R151). -/
theorem fillTable_sameConfig (s : State) (n : Nat) : s.sameConfig (s.fillTable n) := by simp [State.sameConfig]

/-- A borrowed structure that its checks accept meets the configuration invariant (41_packed_array.md R110). -/
theorem configOk_installBorrowed {s : State} {w c b : Nat} (width : 1 ≤ w ∧ w ≤ s.params.wb)
    (fits : b + wordCount s.params.wb w c ≤ 2 ^ s.params.xaddrBits) : (s.install .borrowed w c b).ConfigOk := by
  simp [State.ConfigOk, width, fits]

/-- The checks of PCTFILL are those of a borrowed structure of 2^w elements, w below IDX_BITS (42_popcount_table.md R151). -/
theorem pctfillStatus_ok {p : Params} {w b : Nat} (ok : pctfillStatus p w b = .ok) :
    (1 ≤ w ∧ w ≤ p.wb) ∧ w ≤ p.idxBits - 1 ∧ b < 2 ^ p.xaddrBits ∧ b + wordCount p.wb w (2 ^ w) ≤ 2 ^ p.xaddrBits := by
  obtain ⟨⟨h1, bound⟩, hb, fits⟩ := pctfillStatus_ok_iff.1 ok
  obtain ⟨hwb, hidx⟩ := Nat.le_min.1 bound
  exact ⟨⟨h1, hwb⟩, hidx, hb, fits⟩

/-- Every command keeps the configuration invariant (10_state.md R28). -/
theorem CommandEffect.configOk {s t : State} {i : Instr} (h : CommandEffect s i t) (hs : s.ConfigOk) : t.ConfigOk := by
  cases h with
  | fails | get | rank | popcnt => exact hs
  | write => exact hs.of_sameConfig (insertField_sameConfig s _ _) (by simp)
  | release => simp [State.ConfigOk]
  | cfgo w c ok =>
    obtain ⟨width, fits⟩ := cfgoStatus_ok_iff.1 ok
    simp [State.ConfigOk, width, fits]
  | cfgb w c b ok =>
    obtain ⟨width, -, fits⟩ := cfgbStatus_ok_iff.1 ok
    exact configOk_installBorrowed width fits
  | pctfill w b ok =>
    obtain ⟨width, -, -, fits⟩ := pctfillStatus_ok ok
    exact (configOk_installBorrowed width fits).of_sameConfig (fillTable_sameConfig _ _) (by simp)

section
variable {s : State} (hs : s.ConfigOk) (hc : s.cfgValid = true) {j k : Nat} (hj : j < s.cap)
  (hk : k ∈ spanWords s.params.wb s.fw j)
include hs hc hj hk

/-- Under the configuration invariant an in-range access is to a word of the buffer (41_packed_array.md R102). -/
theorem State.ConfigOk.lt_nw : k < s.nw := by
  obtain ⟨⟨h1, h2⟩, -, -⟩ := hs hc
  exact lt_wordCount_of_mem_spanWords h1 h2 hj hk

/-- Under the configuration invariant an in-range access is to a word its space has (10_state.md R28). -/
theorem State.ConfigOk.storageFault_eq_none : storageFault s k = none := by
  have inBuffer := hs.lt_nw hc hj hk
  obtain ⟨-, owned, borrowed⟩ := hs hc
  unfold storageFault
  cases hm : s.mode with
  | owned => exact if_pos (Nat.lt_of_lt_of_le inBuffer (owned hm))
  | borrowed => exact if_pos (by have := borrowed hm; omega)

end

/-- Settles O15: each effect of a command keeps the invariant, and the invariant bounds the words of every in-range span. -/
theorem everyCommandKeepsTheConfigurationInvariant : Obligations.EveryCommandKeepsTheConfigurationInvariant := by
  intro s t i hs h hc
  have ht : t.ConfigOk := (exec_effect h).configOk hs
  obtain ⟨width, owned, borrowed⟩ := ht hc
  exact ⟨width, owned, borrowed, fun j hj k hk => ⟨ht.lt_nw hc hj hk, ht.storageFault_eq_none hc hj hk⟩⟩

end Sys2Proof.Machine
end

section
/-! The external accesses of a command lie in the buffer of the live borrowed structure (10_state.md R32, 20_memory.md R60). -/

namespace Sys2Proof.Machine

/-- Address `a` is of the external buffer of a live borrowed structure. -/
def State.InBuffer (s : State) (a : Nat) : Prop :=
  s.cfgValid = true ∧ s.mode = .borrowed ∧ s.base ≤ a ∧ a < s.base + s.nw

/-- A buffer lies inside the external address space (41_packed_array.md R107). -/
theorem State.InBuffer.lt_xaddr {s : State} {a : Nat} (h : s.InBuffer a) (hs : s.ConfigOk) : a < 2 ^ s.params.xaddrBits := by
  obtain ⟨hc, hm, -, hlt⟩ := h
  obtain ⟨-, -, fits⟩ := hs hc
  have := fits hm
  omega

section
variable {s : State} (hs : s.ConfigOk) (hc : s.cfgValid = true) {j : Nat} (hj : j < s.cap)
include hs hc hj

/-- An in-range span of a borrowed structure lies in its buffer. -/
theorem State.ConfigOk.inBuffer (hm : s.mode = .borrowed) {k : Nat} (hk : k ∈ spanWords s.params.wb s.fw j) :
    s.InBuffer (s.base + k) :=
  ⟨hc, hm, Nat.le_add_right _ _, Nat.add_lt_add_left (hs.lt_nw hc hj hk) _⟩

theorem State.ConfigOk.inBuffer_of_mem_extractAccesses {x : XmAccess} (hx : x ∈ extractAccesses s j) : s.InBuffer x.addr := by
  unfold extractAccesses at hx
  cases hm : s.mode with
  | owned => simp [hm] at hx
  | borrowed =>
    rw [hm] at hx
    obtain ⟨k, hk, rfl⟩ := List.mem_map.1 hx
    exact hs.inBuffer hc hj hm hk

theorem State.ConfigOk.inBuffer_of_mem_insertAccesses {v : Nat} {x : XmAccess} (hx : x ∈ insertAccesses s j v) :
    s.InBuffer x.addr := by
  obtain ⟨hm, k, hk, haddr⟩ := mem_insertAccesses hx
  exact haddr ▸ hs.inBuffer hc hj hm hk

end

/-- The buffer is a function of the configuration registers and the parameters. -/
theorem State.sameConfig.inBuffer_iff {s t : State} (h : s.sameConfig t) (hp : t.params = s.params) (a : Nat) :
    t.InBuffer a ↔ s.InBuffer a := by
  obtain ⟨cfgValid, mode, fw, cap, base⟩ := h
  unfold State.InBuffer State.nw
  rw [cfgValid, mode, fw, cap, base, hp]

theorem State.ConfigOk.inBuffer_of_mem_fillAccesses {s : State} (hs : s.ConfigOk) (hc : s.cfgValid = true) {n : Nat}
    (hn : n ≤ s.cap) {x : XmAccess} (hx : x ∈ fillAccesses s n) : s.InBuffer x.addr := by
  obtain ⟨j, hj, hx⟩ := mem_fillAccesses hx
  have same := fillTable_sameConfig s j
  rw [← same.inBuffer_iff (by simp)]
  exact (hs.of_sameConfig same (by simp)).inBuffer_of_mem_insertAccesses (by simpa) (by simp; omega) hx

/-! ### The accesses of each command -/

theorem xmAccesses_get {s : State} {j : Nat} (ok : accessStatus s j = .ok) : xmAccesses (.get j) s = extractAccesses s j :=
  if_pos ok

theorem xmAccesses_write {s : State} {j v : Nat} (ok : accessStatus s j = .ok) :
    xmAccesses (.write j v) s = insertAccesses s j (trunc s.fw v) :=
  if_pos ok

theorem xmAccesses_pctfill {s : State} {w b : Nat} (ok : pctfillStatus s.params w b = .ok) :
    xmAccesses (.pctfill w b) s = fillAccesses (s.install .borrowed w (2 ^ w) b) (2 ^ w) :=
  if_pos ok

/-- A failing command accesses nothing (60_exceptions.md R170). -/
theorem xmAccesses_eq_nil_of_failed {s : State} {i : Instr} (failed : commandStatus s i ≠ .ok) : xmAccesses i s = [] := by
  cases i with
  | get | write | pctfill => exact if_neg failed
  | cfgo | cfgb | release | rank | popcnt => rfl
  | reserved0 | reserved9 | reservedA | reservedB | reservedC | reservedD | reservedE | reservedF => rfl

/-- Every access of a command is to the buffer live after it (20_memory.md R60). -/
theorem CommandEffect.inBuffer_of_mem_xmAccesses {s t : State} {i : Instr} (h : CommandEffect s i t) (hs : s.ConfigOk)
    {x : XmAccess} (hx : x ∈ xmAccesses i s) : t.InBuffer x.addr := by
  cases h with
  | fails i failed =>
    rw [xmAccesses_eq_nil_of_failed failed] at hx
    cases hx
  | rank | popcnt | release | cfgo | cfgb => cases hx
  | get j ok =>
    obtain ⟨hc, hj⟩ := accessStatus_ok_iff.1 ok
    rw [xmAccesses_get ok] at hx
    exact hs.inBuffer_of_mem_extractAccesses hc hj hx
  | write j v ok =>
    obtain ⟨hc, hj⟩ := accessStatus_ok_iff.1 ok
    rw [xmAccesses_write ok] at hx
    have same := insertField_sameConfig s j (trunc s.fw v)
    exact (same.inBuffer_iff (by simp) _).2 (hs.inBuffer_of_mem_insertAccesses hc hj hx)
  | pctfill w b ok =>
    obtain ⟨width, -, -, fits⟩ := pctfillStatus_ok ok
    rw [xmAccesses_pctfill ok] at hx
    have same := fillTable_sameConfig (s.install .borrowed w (2 ^ w) b) (2 ^ w)
    exact (same.inBuffer_iff (by simp) _).2
      ((configOk_installBorrowed width fits).inBuffer_of_mem_fillAccesses rfl (Nat.le_refl _) hx)

/-- Settles O43: an access is to the buffer live after the command, which lies inside the address space. -/
theorem accessesStayInsideTheBuffer : Obligations.AccessesStayInsideTheBuffer := by
  intro s t i x hs h hx
  have effect := exec_effect h
  have inBuffer := effect.inBuffer_of_mem_xmAccesses hs.configOk hx
  have inSpace := inBuffer.lt_xaddr (effect.configOk hs.configOk)
  obtain ⟨hc, hm, low, high⟩ := inBuffer
  exact ⟨hc, hm, low, high, effect.params ▸ inSpace⟩

end Sys2Proof.Machine
end

section
/-! Every step keeps the legal states (`State.Inv`): each effect of a command does, and so does a reset during one. -/

namespace Sys2Proof.Machine

/-- An OK response with a WB-bit word of data is one the port can carry (30_encoding.md R76). -/
theorem State.Inv.addData {s : State} (h : s.Inv) {d : Nat} (hd : d < 2 ^ s.params.wb) : (s.addResponse ⟨.ok, d⟩).Inv :=
  h.addResponse _ (by simp [Response.fits, hd])

/-- A response with data 0 is one the port can carry, whatever its status (30_encoding.md R76). -/
theorem State.Inv.addStatus {s : State} (h : s.Inv) (st : Status) : (s.addResponse ⟨st, 0⟩).Inv :=
  h.addResponse _ (by simp [Response.fits])

/-- A field of a live structure fits a word (41_packed_array.md R103). -/
theorem State.Inv.readField_lt {s : State} (h : s.Inv) (hc : s.cfgValid = true) (j : Nat) : readField s j < 2 ^ s.params.wb := by
  obtain ⟨h1, h2⟩ := h.widthLegal hc
  exact Nat.lt_of_lt_of_le (extractField_lt h1 h2 (storageWord_lt h)) (Nat.pow_le_pow_right (by decide) h2)

/-- A field of PROM fits a word (42_popcount_table.md R149). -/
theorem extractField_promWord_lt {p : Params} (hp : p.Valid) (x : Nat) :
    extractField p.wb p.pw x (promWord p) < 2 ^ p.wb := by
  have words := promWord_lt hp
  obtain ⟨-, -, -, -, -, -, -, h1, h2, -⟩ := hp
  exact Nat.lt_of_lt_of_le (extractField_lt h1 h2 words) (Nat.pow_le_pow_right (by decide) h2)

/-- An insert at an in-range index keeps the legal states. -/
theorem State.Inv.insertInRange {s : State} (h : s.Inv) (hc : s.cfgValid = true) {j v : Nat} (hj : j < s.cap) (hv : v < 2 ^ s.fw) :
    (s.insertField j v).Inv :=
  h.insertField hc (fun _ hk => h.configOk.lt_nw hc hj hk) hv

/-- The loop of PCTFILL keeps the legal states: entry i is an in-range index and fits its field (42_popcount_table.md R143). -/
theorem State.Inv.fillTable {s : State} (h : s.Inv) (hc : s.cfgValid = true) {n : Nat} (hn : n ≤ s.cap) (hw : n ≤ 2 ^ s.fw) :
    (s.fillTable n).Inv := by
  induction n with
  | zero => exact h
  | succ i ih =>
    have entry : swarPopcount s.params.wb i < 2 ^ s.fw := Nat.lt_of_le_of_lt (swarPopcount_le _ _) hw
    exact (ih (by omega) (by omega)).insertInRange (by simpa) (by simp; omega) (by simpa)

/-- The borrowed structure a PCTFILL makes live is legal (42_popcount_table.md R151). -/
theorem State.Inv.installPctfill {s : State} (h : s.Inv) {w b : Nat} (ok : pctfillStatus s.params w b = .ok) :
    (s.install .borrowed w (2 ^ w) b).Inv := by
  obtain ⟨width, hidx, hb, fits⟩ := pctfillStatus_ok ok
  obtain ⟨-, -, -, idxBits, -⟩ := h.params
  exact h.installBorrowed width (Nat.pow_lt_pow_right (by decide) (by omega)) hb fits

/-- Every well-formed command keeps the legal states. -/
theorem CommandEffect.inv {s t : State} {i : Instr} (h : CommandEffect s i t) (hs : s.Inv) (hi : i.wellFormed s.params = true) :
    t.Inv := by
  cases h with
  | fails => exact hs.addStatus _
  | get j ok => exact hs.addData (hs.readField_lt (accessStatus_ok_iff.1 ok).1 j)
  | rank x => exact hs.addData (extractField_promWord_lt hs.params x)
  | popcnt x =>
    have operand : x < 2 ^ s.params.wb := by simpa [Instr.wellFormed, fitsVal] using hi
    exact hs.addData (Nat.lt_of_le_of_lt (swarPopcount_le _ _) operand)
  | write j v ok =>
    obtain ⟨hc, hj⟩ := accessStatus_ok_iff.1 ok
    exact (hs.insertInRange hc hj (trunc_lt _ _)).addStatus _
  | release => exact hs.retire.addStatus _
  | cfgo w c ok =>
    obtain ⟨width, fits⟩ := cfgoStatus_ok_iff.1 ok
    simp only [Instr.wellFormed, fitsIdx, Bool.and_eq_true, decide_eq_true_eq] at hi
    obtain ⟨-, capWidth⟩ := hi
    exact (hs.installOwned width capWidth fits).addStatus _
  | cfgb w c b ok =>
    obtain ⟨width, hb, fits⟩ := cfgbStatus_ok_iff.1 ok
    simp only [Instr.wellFormed, fitsIdx, Bool.and_eq_true, decide_eq_true_eq] at hi
    obtain ⟨⟨-, capWidth⟩, -⟩ := hi
    exact (hs.installBorrowed width capWidth hb fits).addStatus _
  | pctfill w b ok => exact ((hs.installPctfill ok).fillTable rfl (Nat.le_refl _) (Nat.le_refl _)).addStatus _

/-- A decoded command keeps the legal states. -/
theorem State.Inv.exec_decode {s t : State} (h : s.Inv) {cw : Nat} (he : exec (decode s.params cw) s = .next t) : t.Inv :=
  (exec_effect he).inv h (decode_wellFormed _ _)

/-! ### A reset during a command (70_reset_and_hazards.md R193) -/

/-- An insert at an in-range index writes WB-bit words inside the external address space. -/
theorem State.Inv.write_fits_of_mem_insertAccesses {s : State} (h : s.Inv) (hc : s.cfgValid = true) {j v a x : Nat} (hj : j < s.cap)
    (hv : v < 2 ^ s.fw) (hx : XmAccess.write a x ∈ insertAccesses s j v) :
    a < 2 ^ s.params.xaddrBits ∧ x < 2 ^ s.params.wb := by
  have inBuffer := h.configOk.inBuffer_of_mem_insertAccesses hc hj hx
  obtain ⟨h1, h2⟩ := h.widthLegal hc
  obtain ⟨-, k, hmem, -⟩ := mem_insertAccesses_write hx
  exact ⟨inBuffer.lt_xaddr h.configOk, fieldWrites_lt h1 h2 hv (storageWord_lt h) _ hmem⟩

/-- The writes of a command are the writes among its accesses. -/
theorem mem_xmWrites {s : State} {i : Instr} {a x : Nat} : (a, x) ∈ xmWrites i s ↔ .write a x ∈ xmAccesses i s := by
  unfold xmWrites
  rw [List.mem_filterMap]
  constructor
  · rintro ⟨_ | ⟨b, y⟩, hy, written⟩
    · cases written
    · cases written
      exact hy
  · exact fun hx => ⟨_, hx, rfl⟩

/-- An extract only reads (41_packed_array.md R103). -/
theorem write_not_mem_extractAccesses (s : State) (j a x : Nat) : .write a x ∉ extractAccesses s j := by
  unfold extractAccesses
  split <;> simp

/-- Every external write of a command from a legal state is of a WB-bit word inside the address space (30_encoding.md R79). -/
theorem State.Inv.xmWrites_fit {s : State} (h : s.Inv) {i : Instr} {a x : Nat} (hx : (a, x) ∈ xmWrites i s) :
    a < 2 ^ s.params.xaddrBits ∧ x < 2 ^ s.params.wb := by
  rw [mem_xmWrites] at hx
  have ok : commandStatus s i = .ok := by
    by_contra failed
    rw [xmAccesses_eq_nil_of_failed failed] at hx
    cases hx
  cases i with
  | get j =>
    rw [xmAccesses_get ok] at hx
    exact absurd hx (write_not_mem_extractAccesses s j a x)
  | write j v =>
    obtain ⟨hc, hj⟩ := accessStatus_ok_iff.1 ok
    rw [xmAccesses_write ok] at hx
    exact h.write_fits_of_mem_insertAccesses hc hj (trunc_lt _ _) hx
  | pctfill w b =>
    rw [xmAccesses_pctfill ok] at hx
    obtain ⟨j, hj, hx⟩ := mem_fillAccesses hx
    have legal := (h.installPctfill ok).fillTable rfl (n := j) hj.le hj.le
    have entry : swarPopcount s.params.wb j < 2 ^ w := Nat.lt_of_le_of_lt (swarPopcount_le _ _) hj
    simpa using legal.write_fits_of_mem_insertAccesses (by simp) (by simpa) (by simpa) hx
  | cfgo | cfgb | release | rank | popcnt => cases hx
  | reserved0 | reserved9 | reservedA | reservedB | reservedC | reservedD | reservedE | reservedF => cases hx

/-- XMEM after a reset during a command is in canonical form. -/
theorem State.Inv.abandonedXmem_wf {s : State} (h : s.Inv) (i : Instr) :
    Memory.wf zeroWord (2 ^ s.params.xaddrBits) s.params.wb (abandonedXmem s.draws (xmWrites i s) s.xmem) := by
  refine foldl_setEach_wf _ _ _ h.xmemForm fun a ha => ?_
  obtain ⟨⟨a, x⟩, hx, rfl⟩ := List.mem_map.1 ha
  refine ⟨(h.xmWrites_fit hx).1, ?_⟩
  rcases abandonedWord_cases s.draws (xmWrites i s) s.xmem a with old | written
  · exact old ▸ Memory.word_lt h.xmemForm a
  · exact (h.xmWrites_fit written).2

theorem State.Inv.abandon {s : State} (h : s.Inv) (i : Instr) : (s.abandon i).Inv :=
  (h.withXmem (h.abandonedXmem_wf i)).resetBlock

/-! ### One step -/

/-- The host's next move fits, and the state without it is legal. -/
theorem State.Inv.takeInput {s : State} (h : s.Inv) {e : HostEvent} {rest : List HostEvent} (hin : s.input = e :: rest) :
    e.fits s.params = true ∧ (s.withInput rest).Inv := by
  have fits := h.inputFits
  rw [hin] at fits
  exact ⟨fits e (by simp), h.withInput fun x hx => fits x (List.mem_cons_of_mem _ hx)⟩

/-- Settles O13, by cases on the host's move: a command, an accepted command, a write, a reset, or the end of a command. -/
theorem stepKeepsTheLegalStates : Obligations.StepKeepsTheLegalStates := by
  intro s t hs h
  rcases step_cases h with ⟨-, -, rfl⟩ | ⟨cw, rest, -, hin, he⟩ | ⟨cw, rest, -, hin, rfl⟩ | ⟨a, v, rest, -, hin, hw⟩ |
    ⟨rest, -, hin, rfl⟩ | ⟨cw, rest, -, hin, rfl⟩ | ⟨cw, -, -, he⟩
  · exact hs
  · exact (hs.takeInput hin).2.exec_decode he
  · obtain ⟨fits, legal⟩ := hs.takeInput hin
    exact legal.acceptCommand (of_decide_eq_true fits)
  · obtain ⟨fits, legal⟩ := hs.takeInput hin
    obtain ⟨ha, rfl⟩ := hostWrite_cases hw
    simp only [HostEvent.fits, Bool.and_eq_true, decide_eq_true_eq] at fits
    obtain ⟨-, word⟩ := fits
    exact legal.withXmem (Memory.setWord_wf legal.xmemForm ha word)
  · exact (hs.takeInput hin).2.resetBlock
  · exact (hs.takeInput hin).2.abandon _
  · exact hs.toIdle.exec_decode he

end Sys2Proof.Machine
end

section
/-! The layout of a field, bit by bit (00_scope.md R14, 20_memory.md R52), and extract(i) as the value laid out in its span
(41_packed_array.md R103, R118). -/

namespace Sys2Proof.Machine

/-! ### The stream and the layout -/

/-- The stream bit at offset `o` of word `k` (00_scope.md R14). -/
theorem streamBit_word_add {wb o : Nat} (ho : o < wb) (rd : Nat → Nat) (k : Nat) :
    streamBit wb rd (k * wb + o) = (rd k).testBit (wb - 1 - o) := by
  unfold streamBit
  rw [Laws.above_field ho, Laws.lowest_field ho]

theorem testBit_toNat_mul_two_pow (c : Bool) (n b : Nat) : (c.toNat * 2 ^ n).testBit b = (decide (n = b) && c) := by
  cases c <;> simp [Nat.testBit_two_pow]

/-- The first `j` stream bits of a field are its `j` high bits, the first one on top (20_memory.md R52). -/
theorem testBit_layoutSum {wb fw start j : Nat} (rd : Nat → Nat) (hj : j ≤ fw) (b : Nat) :
    (layoutSum wb fw start rd j).testBit b =
      (decide (fw ≤ b + j) && decide (b < fw) && streamBit wb rd (start + (fw - 1 - b))) := by
  induction j generalizing b with
  | zero =>
    simp [layoutSum]
  | succ j ih =>
    have bits := ih (by omega)
    have disjoint : layoutSum wb fw start rd j &&& (streamBit wb rd (start + j)).toNat * 2 ^ (fw - 1 - j) = 0 := by
      apply Nat.eq_of_testBit_eq
      intro b
      rw [Nat.testBit_land, bits, testBit_toNat_mul_two_pow, Nat.zero_testBit]
      by_cases hb : fw - 1 - j = b
      · simp [show ¬fw ≤ b + j by omega]
      · simp [hb]
    rw [layoutSum, add_eq_or_of_and_eq_zero disjoint, Nat.testBit_lor, bits, testBit_toNat_mul_two_pow]
    by_cases hb : fw - 1 - j = b
    · simp [hb, show ¬fw ≤ b + j by omega, show fw ≤ b + (j + 1) by omega, show b < fw by omega,
        show fw - 1 - b = j by omega]
    · simp [hb, show fw ≤ b + (j + 1) ↔ fw ≤ b + j by omega]

/-- Bit `b` of V(i) is the stream bit `b` places before the end of span `i` (20_memory.md R52). -/
theorem testBit_layoutValue (wb fw i : Nat) (rd : Nat → Nat) (b : Nat) :
    (layoutValue wb fw i rd).testBit b = (decide (b < fw) && streamBit wb rd (i * fw + (fw - 1 - b))) := by
  unfold layoutValue
  rw [testBit_layoutSum rd (Nat.le_refl fw)]
  simp

/-! ### extract(i) -/

theorem spanInOneWord_iff {wb fw i : Nat} : spanInOneWord wb fw i = true ↔ spanOffset wb fw i + fw ≤ wb := by
  simp [spanInOneWord]

/-- extract(i) of a span inside one word (41_packed_array.md R103). -/
theorem extractField_oneWord {wb fw i : Nat} (h : spanInOneWord wb fw i = true) (rd : Nat → Nat) :
    extractField wb fw i rd = (rd (spanWord wb fw i) >>> spanShift wb fw i) &&& mask fw :=
  if_pos h

/-- extract(i) of a span that straddles two words (41_packed_array.md R103). -/
theorem extractField_twoWords {wb fw i : Nat} (h : spanInOneWord wb fw i = false) (rd : Nat → Nat) :
    extractField wb fw i rd = ((rd (spanWord wb fw i) &&& mask (spanHigh wb fw i)) <<< spanLow wb fw i) |||
      (rd (spanWord wb fw i + 1) >>> (wb - spanLow wb fw i)) :=
  if_neg (by simp [h])

/-- A field inside one word holds its stream bits. -/
theorem testBit_extractField_oneWord {wb fw i : Nat} {rd : Nat → Nat} (h : spanInOneWord wb fw i = true) {b : Nat}
    (hb : b < fw) :
    (extractField wb fw i rd).testBit b = streamBit wb rd (i * fw + (fw - 1 - b)) := by
  have fits := spanInOneWord_iff.1 h
  have position : i * fw + (fw - 1 - b) = spanWord wb fw i * wb + (spanOffset wb fw i + (fw - 1 - b)) := by
    rw [← span_start wb fw i, Nat.add_assoc]
  have bit : wb - 1 - (spanOffset wb fw i + (fw - 1 - b)) = spanShift wb fw i + b := by unfold spanShift; omega
  rw [extractField_oneWord h, position, streamBit_word_add (by omega), bit]
  simp [hb]

section
variable {wb fw i : Nat} (h1 : 1 ≤ fw) (h2 : fw ≤ wb) {rd : Nat → Nat} (hr : ∀ k, rd k < 2 ^ wb)
include h1 h2 hr

/-- A field that straddles two words holds its stream bits: the high ones in word k0, the low ones in word k0 + 1. -/
theorem testBit_extractField_twoWords (h : spanInOneWord wb fw i = false) {b : Nat} (hb : b < fw) :
    (extractField wb fw i rd).testBit b = streamBit wb rd (i * fw + (fw - 1 - b)) := by
  have start := span_start wb fw i
  have straddles := spanInOneWord_eq_false_iff.1 h
  have inWord := spanOffset_lt (wb := wb) fw i (by omega)
  have high : spanHigh wb fw i = wb - spanOffset wb fw i := rfl
  have low : spanLow wb fw i = fw - spanHigh wb fw i := rfl
  rw [extractField_twoWords h, Nat.testBit_lor, Nat.testBit_shiftLeft, Nat.testBit_land, testBit_mask, Nat.testBit_shiftRight]
  rcases Nat.lt_or_ge b (spanLow wb fw i) with hl | hl
  · have position : i * fw + (fw - 1 - b) = (spanWord wb fw i + 1) * wb + (spanLow wb fw i - 1 - b) := by
      rw [Nat.add_one_mul]; omega
    have bit : wb - 1 - (spanLow wb fw i - 1 - b) = wb - spanLow wb fw i + b := by omega
    rw [position, streamBit_word_add (by omega), bit]
    simp [Nat.not_le.2 hl]
  · have position : i * fw + (fw - 1 - b) = spanWord wb fw i * wb + (spanOffset wb fw i + (fw - 1 - b)) := by omega
    have bit : wb - 1 - (spanOffset wb fw i + (fw - 1 - b)) = b - spanLow wb fw i := by omega
    have above : (rd (spanWord wb fw i + 1)).testBit (wb - spanLow wb fw i + b) = false :=
      Nat.testBit_lt_two_pow (Nat.lt_of_lt_of_le (hr _) (Nat.pow_le_pow_right (by decide) (by omega)))
    rw [position, streamBit_word_add (by omega), bit, above]
    simp [hl, show b - spanLow wb fw i < spanHigh wb fw i by omega]

/-- extract(i) is V(i) (41_packed_array.md R118). -/
theorem extractField_eq_layoutValue : extractField wb fw i rd = layoutValue wb fw i rd := by
  apply Nat.eq_of_testBit_eq
  intro b
  rw [testBit_layoutValue]
  rcases Nat.lt_or_ge b fw with hb | hb
  · simp only [hb, decide_true, Bool.true_and]
    cases h : spanInOneWord wb fw i with
    | true => exact testBit_extractField_oneWord h hb
    | false => exact testBit_extractField_twoWords h1 h2 hr h hb
  · have narrow := Nat.lt_of_lt_of_le (extractField_lt (i := i) h1 h2 hr) (Nat.pow_le_pow_right (by decide) hb)
    rw [Nat.testBit_lt_two_pow narrow]
    simp [Nat.not_lt.2 hb]

end

/-! ### GET -/

/-- In a legal state with a live structure, readField is V(i) of the buffer (41_packed_array.md R111). -/
theorem State.Inv.readField_eq_layoutValue {s : State} (h : s.Inv) (hc : s.cfgValid = true) (i : Nat) :
    readField s i = layoutValue s.params.wb s.fw i (storageWord s) := by
  obtain ⟨h1, h2⟩ := h.widthLegal hc
  exact extractField_eq_layoutValue h1 h2 (storageWord_lt h)

/-- No word of an in-range span faults (10_state.md R28, 41_packed_array.md R102). -/
theorem State.ConfigOk.spanFault_eq_none {s : State} (hs : s.ConfigOk) (hc : s.cfgValid = true) {i : Nat} (hi : i < s.cap) :
    spanFault s i = none :=
  spanFault_eq_none_iff.2 fun _ hk => hs.storageFault_eq_none hc hi hk

/-- GET of an in-range index responds the field (41_packed_array.md R111). -/
theorem State.ConfigOk.exec_get {s : State} (hs : s.ConfigOk) (hc : s.cfgValid = true) {i : Nat} (hi : i < s.cap) :
    exec (.get i) s = .next (s.addResponse ⟨.ok, readField s i⟩) := by
  show execGet i s = _
  unfold execGet
  rw [if_pos (accessStatus_ok_iff.2 ⟨hc, hi⟩), hs.spanFault_eq_none hc hi]
  rfl

/-- GET of an in-range index in a legal state responds V(i) (41_packed_array.md R111). -/
theorem State.Inv.exec_get {s : State} (h : s.Inv) (hc : s.cfgValid = true) {i : Nat} (hi : i < s.cap) :
    exec (.get i) s = .next (s.addResponse ⟨.ok, layoutValue s.params.wb s.fw i (storageWord s)⟩) := by
  rw [h.configOk.exec_get hc hi, h.readField_eq_layoutValue hc]

end Sys2Proof.Machine
end

section
/-! A host write between commands (20_memory.md R64). -/

namespace Sys2Proof.Machine

/-- An IDLE block takes up a host write that its space has (20_memory.md R64). -/
theorem step_hostWrite {s : State} {a v : Nat} {rest : List HostEvent} (hp : s.phase = .idle)
    (hin : s.input = .write a v :: rest) (ha : a < 2 ^ s.params.xaddrBits) :
    step s = .next ((s.withInput rest).setXmemWord a v) := by
  unfold step
  rw [hp, hin]
  exact hostWrite_next ha

/-- An IDLE block runs the command word presented next (70_reset_and_hazards.md R196). -/
theorem step_command {s : State} {cw : Nat} {rest : List HostEvent} (hp : s.phase = .idle)
    (hin : s.input = .command cw :: rest) : step s = exec (decode s.params cw) (s.withInput rest) := by
  unfold step
  rw [hp, hin]

theorem xmemWord_setXmemWord (s : State) (a v b : Nat) :
    xmemWord (s.setXmemWord a v) b = if b = a then v else xmemWord s b :=
  Memory.word_setWord s.xmem a v b

/-- A write to XMEM shows in the words of a borrowed buffer (41_packed_array.md R100). -/
theorem storageWord_setXmemWord_borrowed {s : State} (hm : s.mode = .borrowed) (a v k : Nat) :
    storageWord (s.setXmemWord a v) k = if s.base + k = a then v else storageWord s k := by
  unfold storageWord
  rw [State.setXmemWord_mode, hm]
  exact xmemWord_setXmemWord s a v (s.base + k)

/-- A write to XMEM does not show in the words of an owned structure (41_packed_array.md R100). -/
theorem storageWord_setXmemWord_owned {s : State} (hm : s.mode = .owned) (a v k : Nat) :
    storageWord (s.setXmemWord a v) k = storageWord s k := by
  unfold storageWord
  rw [State.setXmemWord_mode, hm]
  rfl

@[simp] theorem storageWord_withInput (s : State) (l : List HostEvent) : storageWord (s.withInput l) = storageWord s := rfl

/-- A write of a WB-bit word inside the external address space keeps the legal states. -/
theorem State.Inv.setXmemWord {s : State} (h : s.Inv) {a v : Nat} (ha : a < 2 ^ s.params.xaddrBits) (hv : v < 2 ^ s.params.wb) :
    (s.setXmemWord a v).Inv :=
  h.withXmem (Memory.setWord_wf h.xmemForm ha hv)

/-- Settles O9: the block after the host write is `s` with the move taken up and the word in XMEM, and each clause reads it. -/
theorem hostWriteIsSeenByTheNextCommand : Obligations.HostWriteIsSeenByTheNextCommand := by
  intro s a v rest hp hin ha
  refine ⟨_, step_hostWrite hp hin ha, rfl, hp, rfl, rfl, ⟨rfl, rfl, rfl, rfl, rfl⟩, fun _ => rfl, ?_, ?_, ?_, ?_, ?_, ?_⟩
  · simp [xmemWord_setXmemWord]
  · intro b hb
    rw [xmemWord_setXmemWord, if_neg hb]
    rfl
  · exact fun cw rest' hrest => step_command hp hrest
  · exact fun hm k => storageWord_setXmemWord_borrowed (s := s.withInput rest) hm a v k
  · intro hm hs hv hc i hi
    obtain ⟨-, legal⟩ := hs.takeInput hin
    have buffer : storageWord ((s.withInput rest).setXmemWord a v) = fun k => if s.base + k = a then v else storageWord s k :=
      funext fun k => storageWord_setXmemWord_borrowed (s := s.withInput rest) hm a v k
    rw [← buffer]
    exact (legal.setXmemWord ha hv).exec_get hc hi
  · intro hm
    have words : ∀ k, storageWord ((s.withInput rest).setXmemWord a v) k = storageWord s k :=
      fun k => storageWord_setXmemWord_owned (s := s.withInput rest) hm a v k
    exact ⟨words, fun i => congrArg (extractField s.params.wb s.fw i) (funext words)⟩

end Sys2Proof.Machine
end

section
/-! The commands that only read, the external accesses of GET and WRITE, and XMEM after a command (20_memory.md R57, R63). -/

namespace Sys2Proof.Machine

/-! ### Commands that only respond -/

/-- A response changes nothing but the record of responses (00_scope.md R17). -/
theorem addResponse_frame (s : State) (r : Response) :
    (∃ st d, s.responded (s.addResponse r) st d) ∧ s.sameConfig (s.addResponse r) ∧ s.samePorts (s.addResponse r) ∧
      s.sameXmem (s.addResponse r) ∧ s.sameOram (s.addResponse r) :=
  ⟨⟨r.status, r.data, rfl⟩, ⟨rfl, rfl, rfl, rfl, rfl⟩, ⟨rfl, rfl, rfl⟩, fun _ => rfl, fun _ => rfl⟩

/-- A reserved command has no effect of its own (30_encoding.md R81). -/
theorem CommandEffect.eq_addResponse_of_reserved {s t : State} {i : Instr}
    (hi : i ∈ [.reserved0, .reserved9, .reservedA, .reservedB, .reservedC, .reservedD, .reservedE, .reservedF])
    (h : CommandEffect s i t) : t = s.addResponse ⟨commandStatus s i, 0⟩ := by
  cases h with
  | fails => rfl
  | get | rank | popcnt | write | release | cfgo | cfgb | pctfill => simp at hi

/-- Settles O20: each of these commands ends in a response to the state it started from. -/
theorem readingCommandsChangeNothing : Obligations.ReadingCommandsChangeNothing := by
  intro s t i hi h
  have effect := exec_effect h
  rcases hi with ⟨j, rfl⟩ | ⟨x, rfl⟩ | ⟨x, rfl⟩ | hi
  · cases effect <;> exact addResponse_frame s _
  · cases effect <;> exact addResponse_frame s _
  · cases effect <;> exact addResponse_frame s _
  · exact effect.eq_addResponse_of_reserved hi ▸ addResponse_frame s _

/-! ### The accesses of extract and insert (41_packed_array.md R103, R104) -/

theorem spanWords_oneWord {wb fw i : Nat} (h : spanInOneWord wb fw i = true) : spanWords wb fw i = [spanWord wb fw i] :=
  if_pos h

theorem spanWords_twoWords {wb fw i : Nat} (h : spanInOneWord wb fw i = false) :
    spanWords wb fw i = [spanWord wb fw i, spanWord wb fw i + 1] :=
  if_neg (by simp [h])

theorem fieldWrites_oneWord {wb fw i : Nat} (h : spanInOneWord wb fw i = true) (v : Nat) (rd : Nat → Nat) :
    ∃ x, fieldWrites wb fw i v rd = [(spanWord wb fw i, x)] :=
  ⟨_, if_pos h⟩

theorem fieldWrites_twoWords {wb fw i : Nat} (h : spanInOneWord wb fw i = false) (v : Nat) (rd : Nat → Nat) :
    ∃ x y, fieldWrites wb fw i v rd = [(spanWord wb fw i, x), (spanWord wb fw i + 1, y)] :=
  ⟨_, _, if_neg (by simp [h])⟩

theorem extractAccesses_owned {s : State} (hm : s.mode = .owned) (i : Nat) : extractAccesses s i = [] := by
  unfold extractAccesses
  rw [hm]

theorem insertAccesses_owned {s : State} (hm : s.mode = .owned) (i v : Nat) : insertAccesses s i v = [] := by
  unfold insertAccesses
  rw [hm]

theorem extractAccesses_borrowed {s : State} (hm : s.mode = .borrowed) (i : Nat) :
    extractAccesses s i = (spanWords s.params.wb s.fw i).map fun k => .read (s.base + k) := by
  unfold extractAccesses
  rw [hm]

theorem insertAccesses_borrowed {s : State} (hm : s.mode = .borrowed) (i v : Nat) :
    insertAccesses s i v = (fieldWrites s.params.wb s.fw i v (storageWord s)).flatMap
      fun kv => [.read (s.base + kv.1), .write (s.base + kv.1) kv.2] := by
  unfold insertAccesses
  rw [hm]

/-- In OWNED mode GET and WRITE make no external access (20_memory.md R57). -/
theorem xmAccesses_eq_nil_of_owned {s : State} (hm : s.mode = .owned) (i v : Nat) :
    xmAccesses (.get i) s = [] ∧ xmAccesses (.write i v) s = [] := by
  simp [xmAccesses, extractAccesses_owned hm, insertAccesses_owned hm]

/-- GET and WRITE of no live structure or out of range make no access (41_packed_array.md R111, R112). -/
theorem xmAccesses_eq_nil_of_accessStatus {s : State} {i : Nat} (failed : accessStatus s i ≠ .ok) (v : Nat) :
    xmAccesses (.get i) s = [] ∧ xmAccesses (.write i v) s = [] :=
  ⟨xmAccesses_eq_nil_of_failed failed, xmAccesses_eq_nil_of_failed failed⟩

section
variable {s : State} (hm : s.mode = .borrowed) (hc : s.cfgValid = true) {i : Nat} (hi : i < s.cap)
include hm hc hi

/-- The accesses of an in-range GET of a borrowed structure (41_packed_array.md R103). -/
theorem xmAccesses_get_borrowed :
    xmAccesses (.get i) s = (spanWords s.params.wb s.fw i).map fun k => .read (s.base + k) := by
  rw [xmAccesses_get (accessStatus_ok_iff.2 ⟨hc, hi⟩), extractAccesses_borrowed hm]

/-- The accesses of an in-range WRITE of a borrowed structure (41_packed_array.md R104). -/
theorem xmAccesses_write_borrowed (v : Nat) :
    xmAccesses (.write i v) s = (fieldWrites s.params.wb s.fw i (trunc s.fw v) (storageWord s)).flatMap
      fun kv => [.read (s.base + kv.1), .write (s.base + kv.1) kv.2] := by
  rw [xmAccesses_write (accessStatus_ok_iff.2 ⟨hc, hi⟩), insertAccesses_borrowed hm]

end

/-- Settles O41, by the status of the command and by whether the span straddles. -/
theorem accessesOfGetAndWrite : Obligations.AccessesOfGetAndWrite := by
  intro s i v
  refine ⟨fun _ _ _ _ => ⟨rfl, rfl, rfl, rfl, rfl⟩, ?reserved, ?pctfillFails, ?accessFails, ?oneWord, ?twoWords⟩
  case reserved => simp [xmAccesses]
  case pctfillFails =>
    intro w b hf
    refine xmAccesses_eq_nil_of_failed fun ok => ?_
    obtain ⟨⟨h1, hw⟩, hb, fits⟩ := pctfillStatus_ok_iff.1 ok
    unfold pctWMax at hw
    unfold wordCount at fits
    omega
  case accessFails =>
    rintro (owned | noCfg | range)
    · exact xmAccesses_eq_nil_of_owned owned i v
    · exact xmAccesses_eq_nil_of_accessStatus (by simp [accessStatus_noCfg i noCfg]) v
    · exact xmAccesses_eq_nil_of_accessStatus (fun ok => Nat.not_lt.2 range (accessStatus_ok_iff.1 ok).2) v
  case oneWord =>
    intro hm hc hi one
    obtain ⟨x, writes⟩ := fieldWrites_oneWord one (trunc s.fw v) (storageWord s)
    rw [xmAccesses_get_borrowed hm hc hi, spanWords_oneWord one, xmAccesses_write_borrowed hm hc hi, writes]
    exact ⟨rfl, x, rfl⟩
  case twoWords =>
    intro hm hc hi two
    obtain ⟨x, y, writes⟩ := fieldWrites_twoWords two (trunc s.fw v) (storageWord s)
    rw [xmAccesses_get_borrowed hm hc hi, spanWords_twoWords two, xmAccesses_write_borrowed hm hc hi, writes]
    exact ⟨rfl, x, y, rfl⟩

/-! ### XMEM after a command (20_memory.md R63) -/

/-- A command that fails writes no external word (60_exceptions.md R170). -/
theorem xmWrites_eq_nil_of_failed {s : State} {i : Instr} (failed : commandStatus s i ≠ .ok) : xmWrites i s = [] := by
  rw [xmWrites, xmAccesses_eq_nil_of_failed failed]
  rfl

/-- GET writes no external word (41_packed_array.md R103). -/
theorem xmWrites_get (s : State) (j : Nat) : xmWrites (.get j) s = [] := by
  by_cases ok : accessStatus s j = .ok
  · rw [xmWrites, xmAccesses_get ok, List.filterMap_eq_nil_iff]
    rintro (_ | ⟨a, x⟩) hx
    · rfl
    · exact absurd hx (write_not_mem_extractAccesses s j a x)
  · exact xmWrites_eq_nil_of_failed ok

/-- XMEM after a command is XMEM before it with the command's port writes in order (20_memory.md R63). -/
theorem CommandEffect.xmem {s t : State} {i : Instr} (h : CommandEffect s i t) :
    t.xmem = (xmWrites i s).foldl (fun m c => Memory.setWord m c.1 c.2) s.xmem := by
  cases h with
  | fails i failed => rw [xmWrites_eq_nil_of_failed failed]; rfl
  | get j => rw [xmWrites_get]; rfl
  | rank | popcnt => rfl
  | release => exact State.retire_xmem s
  | cfgo w c => exact State.install_xmem s .owned w c s.base
  | cfgb w c b => exact State.install_xmem s .borrowed w c b
  | write j v ok =>
    rw [xmWrites, xmAccesses_write ok]
    exact insertField_xmem s j _
  | pctfill w b ok =>
    rw [xmWrites, xmAccesses_pctfill ok, ← State.install_xmem s .borrowed w (2 ^ w) b]
    exact fillTable_xmem _ _

/-- Settles O42: a word after the port writes of the command holds the last one to it. -/
theorem portWritesAreDoneWhenTheCommandResponds : Obligations.PortWritesAreDoneWhenTheCommandResponds := by
  intro s t i h a
  unfold xmemWord
  rw [(exec_effect h).xmem, word_foldl_setWord]

end Sys2Proof.Machine
end

section
/-! The command word and the response word, both ways (30_encoding.md R70 to R76, R84), and the reserved commands (R81). -/

namespace Sys2Proof

open Laws

/-! ### The fields of a command word (30_encoding.md R70) -/

/-- The fw field of an assembled word is the number put there. -/
theorem fwField_assemble (p : Params) (op : Nat) {fw idx val : Nat} (hf : fw < 2 ^ 8) (hi : idx < 2 ^ p.idxBits)
    (hv : val < 2 ^ p.wb) : fwField p (assemble p op fw idx val) = fw := by
  unfold fwField bitField assemble
  rw [Nat.shiftRight_eq_div_pow, Nat.pow_add, ← Nat.div_div_eq_div_mul, above_field hv, above_field hi]
  exact lowest_field hf

/-- The idx field of an assembled word is the number put there. -/
theorem idxField_assemble (p : Params) (op fw : Nat) {idx val : Nat} (hi : idx < 2 ^ p.idxBits) (hv : val < 2 ^ p.wb) :
    idxField p (assemble p op fw idx val) = idx := by
  unfold idxField bitField assemble
  rw [Nat.shiftRight_eq_div_pow, above_field hv]
  exact lowest_field hi

/-- The val field of an assembled word is the number put there. -/
theorem valField_assemble (p : Params) (op fw idx : Nat) {val : Nat} (hv : val < 2 ^ p.wb) :
    valField p (assemble p op fw idx val) = val :=
  lowest_field hv

/-- A command word holds nothing above its op field. -/
theorem opField_eq_div {p : Params} {cw : Nat} (h : cw < 2 ^ cww p) :
    opField p cw < 16 ∧ opField p cw = cw / 2 ^ (p.wb + p.idxBits + 8) := by
  have small : cw / 2 ^ (p.wb + p.idxBits + 8) < 16 := by
    rw [Nat.div_lt_iff_lt_mul (Nat.two_pow_pos _), show 16 = 2 ^ 4 from rfl, ← Nat.pow_add,
      show 4 + (p.wb + p.idxBits + 8) = cww p by unfold cww; omega]
    exact h
  have eq : opField p cw = cw / 2 ^ (p.wb + p.idxBits + 8) := by
    rw [opField, bitField, Nat.shiftRight_eq_div_pow]
    exact Nat.mod_eq_of_lt small
  exact ⟨eq ▸ small, eq⟩

theorem fwField_eq_div_mod (p : Params) (cw : Nat) : fwField p cw = cw / 2 ^ (p.wb + p.idxBits) % 2 ^ 8 := by
  rw [fwField, bitField, Nat.shiftRight_eq_div_pow]

theorem idxField_eq_div_mod (p : Params) (cw : Nat) : idxField p cw = cw / 2 ^ p.wb % 2 ^ p.idxBits := by
  rw [idxField, bitField, Nat.shiftRight_eq_div_pow]

theorem valField_eq_mod (p : Params) (cw : Nat) : valField p cw = cw % 2 ^ p.wb := rfl

/-! ### The operands of a command (30_encoding.md R73, R84) -/

/-- What the assembler puts into the fw field: the operand of that field, or 0 where the command has none. -/
def Instr.fwOperand : Instr → Nat
  | .cfgo fw _ => fw
  | .cfgb fw _ _ => fw
  | .pctfill w _ => w
  | _ => 0

/-- What the assembler puts into the idx field. -/
def Instr.idxOperand : Instr → Nat
  | .cfgo _ cap => cap
  | .cfgb _ cap _ => cap
  | .get idx => idx
  | .write idx _ => idx
  | .rank pattern => pattern
  | _ => 0

/-- What the assembler puts into the val field. -/
def Instr.valOperand : Instr → Nat
  | .cfgb _ _ base => base
  | .write _ value => value
  | .popcnt value => value
  | .pctfill _ base => base
  | _ => 0

theorem encode_eq_assemble (p : Params) (i : Instr) :
    encode p i = assemble p i.opValue i.fwOperand i.idxOperand i.valOperand := by
  cases i <;> rfl

theorem Instr.opValue_lt (i : Instr) : i.opValue < 16 := by
  cases i <;> simp [Instr.opValue]

/-- The operands of a well-formed command fit their fields. -/
theorem Instr.operands_fit {p : Params} {i : Instr} (h : i.wellFormed p = true) :
    i.fwOperand < 2 ^ 8 ∧ i.idxOperand < 2 ^ p.idxBits ∧ i.valOperand < 2 ^ p.wb := by
  cases i <;> simp_all [Instr.wellFormed, fitsFw, fitsIdx, fitsVal, Instr.fwOperand, Instr.idxOperand, Instr.valOperand]

/-! ### Decoding -/

/-- Only the fields decide what a word decodes to: with the op value and the operands of a command in them, it is that command
(30_encoding.md R73, R75). -/
theorem decode_eq_of_fields {p : Params} {cw : Nat} {i : Instr} (hop : opField p cw = i.opValue) (hfw : fwField p cw = i.fwOperand)
    (hidx : idxField p cw = i.idxOperand) (hval : valField p cw = i.valOperand) : decode p cw = i := by
  unfold decode
  rw [hop, hfw, hidx, hval]
  cases i <;> rfl

/-- Settles O1: the assembled word holds the op value and the operands of the command, each in its own field. -/
theorem decodeOfEncodeIsIdentity : Obligations.DecodeOfEncodeIsIdentity := by
  intro p i h
  obtain ⟨hf, hi, hv⟩ := Instr.operands_fit h
  rw [encode_eq_assemble]
  exact ⟨assemble_lt p i.opValue_lt hf hi hv,
    decode_eq_of_fields (opField_assemble p i.opValue_lt hf hi hv) (fwField_assemble p _ hf hi hv)
      (idxField_assemble p _ _ hi hv) (valField_assemble p _ _ _ hv)⟩

/-- Settles O2: the op field of a command word is everything above the other fields, and the decoder selects on it alone. -/
theorem opFieldSelectsTheCommand : Obligations.OpFieldSelectsTheCommand := by
  intro p cw op fw idx val hcw hop hfw hidx hval
  obtain ⟨op_lt, op_eq⟩ := opField_eq_div (p := p) hcw
  unfold decode
  rw [fwField_eq_div_mod, idxField_eq_div_mod, valField_eq_mod, ← hfw, ← hidx, ← hval]
  rw [op_eq, ← hop] at op_lt ⊢
  refine ⟨op_lt, ?_, ?_, ?_, ?_, ?_, ?_, ?_, ?_, ?_, ?_, ?_, ?_, ?_, ?_, ?_, ?_⟩ <;> exact fun selected => selected ▸ rfl

end Sys2Proof

namespace Sys2Proof.Machine

open Laws

/-! ### The response word (30_encoding.md R76) -/

theorem Status.code_lt (st : Status) : st.code < 7 := by
  cases st <;> decide

theorem Status.ofCode_code (st : Status) : Status.ofCode st.code = some st := by
  cases st <;> rfl

/-- Every 3-bit code but 7 is the code of a status (60_exceptions.md R170). -/
theorem Status.exists_code_eq {c : Nat} (h : c < 7) : ∃ st : Status, st.code = c := by
  interval_cases c
  exacts [⟨.ok, rfl⟩, ⟨.illegal, rfl⟩, ⟨.noCfg, rfl⟩, ⟨.width, rfl⟩, ⟨.space, rfl⟩, ⟨.base, rfl⟩, ⟨.range, rfl⟩]

/-- A response word is read by the bits above its data and the data below (30_encoding.md R76). -/
theorem Response.ofWord_eq {wb n : Nat} (h : n < 2 ^ (wb + 3)) :
    n / 2 ^ wb < 8 ∧ Response.ofWord wb n = (Status.ofCode (n / 2 ^ wb)).map fun st => ⟨st, n % 2 ^ wb⟩ := by
  have code : n / 2 ^ wb < 8 := by
    rwa [Nat.div_lt_iff_lt_mul (Nat.two_pow_pos _), Nat.mul_comm, show 8 = 2 ^ 3 from rfl, ← Nat.pow_add]
  have above : bitField n wb 3 = n / 2 ^ wb := by
    rw [bitField, Nat.shiftRight_eq_div_pow]
    exact Nat.mod_eq_of_lt code
  exact ⟨code, by rw [Response.ofWord, above]; rfl⟩

/-- A response word with the code of a status above its data stands for that status and that data. -/
theorem Response.ofWord_eq_some {wb n : Nat} {st : Status} (h : n < 2 ^ (wb + 3)) (hst : st.code = n / 2 ^ wb) :
    Response.ofWord wb n = some ⟨st, n % 2 ^ wb⟩ := by
  rw [(Response.ofWord_eq h).2, ← hst, Status.ofCode_code]
  rfl

/-- Settles O4: code and data are the quotient and the remainder of the word by 2^WB, and the codes below 7 are the statuses'. -/
theorem responseWordCarriesStatusAndData : Obligations.ResponseWordCarriesStatusAndData := by
  intro wb
  refine ⟨fun r hr => ?_, fun n hn => ⟨fun refused => ?_, fun code => ?_⟩⟩
  · have status : r.word wb / 2 ^ wb = r.status.code := above_field hr
    have data : r.word wb % 2 ^ wb = r.data := lowest_field hr
    have fits : r.word wb < 2 ^ (wb + 3) := by
      rw [Nat.add_comm, Nat.pow_add]
      exact assemble_step (Nat.lt_succ_of_lt r.status.code_lt) hr
    refine ⟨fits, status, data, ?_⟩
    rw [Response.ofWord_eq_some fits status.symm, data]
  · rw [(Response.ofWord_eq hn).2, refused]
    rfl
  · obtain ⟨below, -⟩ := Response.ofWord_eq hn
    obtain ⟨st, hst⟩ := Status.exists_code_eq (c := n / 2 ^ wb) (by omega)
    refine ⟨_, Response.ofWord_eq_some hn hst, ?_⟩
    rw [Response.word, hst]
    exact Nat.div_add_mod' n (2 ^ wb)

/-! ### The reserved commands (30_encoding.md R81) -/

/-- Settles O21: each of the eight is `illegalCommand`, and none is a command with accesses. -/
theorem reservedCommandsRespondIllegal : Obligations.ReservedCommandsRespondIllegal := by
  intro s i hi
  simp only [List.mem_cons, List.not_mem_nil, or_false] at hi
  rcases hi with rfl | rfl | rfl | rfl | rfl | rfl | rfl | rfl <;> exact ⟨rfl, rfl⟩

end Sys2Proof.Machine
end

section
/-! Commands the host presents one after the other (30_encoding.md R78, 20_memory.md R62). -/

namespace Sys2Proof.Machine

/-! ### No command faults (60_exceptions.md R174) -/

/-- No access of a GET or a WRITE that passes its checks faults (10_state.md R28). -/
theorem State.ConfigOk.spanFault_of_accessStatus {s : State} (hs : s.ConfigOk) {j : Nat} (ok : accessStatus s j = .ok) :
    spanFault s j = none :=
  have ⟨hc, hj⟩ := accessStatus_ok_iff.1 ok
  hs.spanFault_eq_none hc hj

/-- Under the configuration invariant every command goes on. -/
theorem State.ConfigOk.exists_exec_eq_next {s : State} (hs : s.ConfigOk) (i : Instr) : ∃ t, exec i s = .next t := by
  cases i with
  | get j | write j =>
    simp only [exec, execGet, execWrite]
    split_ifs with ok
    · rw [hs.spanFault_of_accessStatus ok]
      exact ⟨_, rfl⟩
    · exact ⟨_, rfl⟩
  | cfgo | cfgb | rank | pctfill =>
    simp only [exec, execCfgo, execCfgb, execRank, execPctfill]
    split_ifs <;> exact ⟨_, rfl⟩
  | release | popcnt => exact ⟨_, rfl⟩
  | reserved0 | reserved9 | reservedA | reservedB | reservedC | reservedD | reservedE | reservedF => exact ⟨_, rfl⟩

/-- Every command gives exactly one response (00_scope.md R17). -/
theorem CommandEffect.exists_response {s t : State} {i : Instr} (h : CommandEffect s i t) : ∃ r, t.rsps = r :: s.rsps := by
  cases h <;> simp

/-- A command takes up no host move of its own and leaves the phase as it is (70_reset_and_hazards.md R196). -/
theorem CommandEffect.samePorts {s t : State} {i : Instr} (h : CommandEffect s i t) : s.samePorts t :=
  ⟨h.params, by cases h <;> simp, by cases h <;> simp⟩

/-! ### A list of presented commands -/

/-- A legal IDLE state whose host presents the command words `cws`, in this order, and then nothing. -/
structure State.Awaits (s : State) (cws : List Nat) : Prop where
  legal : s.Inv
  idle : s.phase = .idle
  presented : s.input = cws.map .command

/-- One step runs the first of the presented words, answers it, and leaves the others presented. -/
theorem State.Awaits.step {s : State} {cw : Nat} {cws : List Nat} (h : s.Awaits (cw :: cws)) :
    ∃ u r, Machine.step s = .next u ∧ exec (decode s.params cw) (s.withInput (cws.map .command)) = .next u ∧
      u.rsps = r :: s.rsps ∧ u.params = s.params ∧ u.Awaits cws := by
  have taken : s.input = .command cw :: cws.map .command := h.presented
  obtain ⟨-, legal⟩ := h.legal.takeInput taken
  obtain ⟨u, runs⟩ := legal.configOk.exists_exec_eq_next (decode s.params cw)
  have effect := exec_effect runs
  obtain ⟨r, answered⟩ := effect.exists_response
  obtain ⟨params, phase, input⟩ := effect.samePorts
  exact ⟨u, r, (step_command h.idle taken).trans runs, runs, answered, params,
    legal.exec_decode runs, phase.trans h.idle, input⟩

/-- A run that goes on, and then one more step that goes on. -/
theorem run_succ_of_step {M : Host.Core} {k : Nat} {s t u : M.State} (h : M.run k s = .next t) (hu : M.step t = .next u) :
    M.run (k + 1) s = .next u := by
  induction k generalizing s with
  | zero =>
    cases h
    exact run_next hu
  | succ k ih =>
    obtain ⟨v, first, rest⟩ := run_first h
    rw [run_next first]
    exact ih rest

/-- After k steps the first k of the presented words have been answered, once each, and the others are still presented. -/
theorem State.Awaits.run {s : State} {cws : List Nat} (h : s.Awaits cws) {k : Nat} (hk : k ≤ cws.length) :
    ∃ t rs, Host.Core.run Sys2Proof.core k s = .next t ∧ t.rsps = rs ++ s.rsps ∧ rs.length = k ∧ t.params = s.params ∧
      t.Awaits (cws.drop k) := by
  induction k with
  | zero => exact ⟨s, [], rfl, rfl, rfl, rfl, h⟩
  | succ k ih =>
    obtain ⟨t, rs, run, answered, count, params, awaits⟩ := ih (by omega)
    rw [List.drop_eq_getElem_cons hk] at awaits
    obtain ⟨u, r, step, -, answer, params', awaits'⟩ := awaits.step
    exact ⟨u, r :: rs, run_succ_of_step run step, by rw [answer, answered]; rfl, by rw [List.length_cons, count],
      params'.trans params, awaits'⟩

/-- Settles O11: k steps answer the first k words, and the next step answers word number k. -/
theorem everyPresentedCommandIsAnswered : Obligations.EveryPresentedCommandIsAnswered := by
  intro s cws legal idle presented
  have start : s.Awaits cws := ⟨legal, idle, presented⟩
  constructor
  · intro k cw hcw
    obtain ⟨hk, rfl⟩ := List.getElem?_eq_some_iff.1 hcw
    obtain ⟨t, -, run, -, -, params, awaits⟩ := start.run hk.le
    have next := awaits
    rw [List.drop_eq_getElem_cons hk] at next
    obtain ⟨u, r, step, runs, answer, -, left⟩ := next.step
    rw [params] at runs
    exact ⟨t, u, r, run, awaits.idle, awaits.presented, step, runs, run_succ_of_step run step, answer, left.idle, left.presented,
      left.legal⟩
  · obtain ⟨t, rs, run, answered, count, -, done⟩ := start.run (Nat.le_refl _)
    rw [List.drop_length] at done
    exact ⟨t, rs, run, answered, count, done.idle, done.presented, done.legal⟩

end Sys2Proof.Machine
end

section
/-! Where a span lies (41_packed_array.md R101, R102). -/

namespace Sys2Proof.Machine

/-! ### The shifts of a span -/

/-- A one-word span fills its word up to the shift (41_packed_array.md R101). -/
theorem spanShift_add {wb fw i : Nat} (h : spanInOneWord wb fw i = true) :
    spanShift wb fw i + spanOffset wb fw i + fw = wb := by
  have fits := spanInOneWord_iff.1 h
  unfold spanShift
  omega

/-- The high part of a two-word span runs to the end of word k0 (41_packed_array.md R101). -/
theorem spanHigh_add {wb : Nat} (fw i : Nat) (h : 0 < wb) : spanHigh wb fw i + spanOffset wb fw i = wb := by
  have inWord := spanOffset_lt fw i h
  unfold spanHigh
  omega

/-- A two-word span has at least one bit in word k0 + 1, and its parts make up the field (41_packed_array.md R101). -/
theorem spanHigh_add_spanLow {wb fw i : Nat} (hwb : 0 < wb) (h : spanInOneWord wb fw i = false) :
    spanHigh wb fw i + spanLow wb fw i = fw ∧ 1 ≤ spanLow wb fw i := by
  have straddles := spanInOneWord_eq_false_iff.1 h
  have high := spanHigh_add fw i hwb
  unfold spanLow
  omega

/-! ### The last word of a span -/

/-- k1 of a one-word span (41_packed_array.md R101). -/
theorem lastWord_oneWord {wb fw i : Nat} (h1 : 1 ≤ fw) (h : spanInOneWord wb fw i = true) :
    (i * fw + fw - 1) / wb = spanWord wb fw i := by
  have start := span_start wb fw i
  have fits := spanInOneWord_iff.1 h
  refine Nat.div_eq_of_lt_le ?_ ?_
  · omega
  · rw [Nat.add_one_mul]; omega

section
variable {wb fw i : Nat} (h1 : 1 ≤ fw) (h2 : fw ≤ wb)
include h1 h2

/-- k1 of a two-word span (41_packed_array.md R101). -/
theorem lastWord_twoWords (h : spanInOneWord wb fw i = false) : (i * fw + fw - 1) / wb = spanWord wb fw i + 1 := by
  have start := span_start wb fw i
  have straddles := spanInOneWord_eq_false_iff.1 h
  have inWord := spanOffset_lt (wb := wb) fw i (by omega)
  refine Nat.div_eq_of_lt_le ?_ ?_
  · rw [Nat.add_one_mul]; omega
  · rw [Nat.add_one_mul, Nat.add_one_mul]; omega

/-- The two forms of k1 (41_packed_array.md R101). -/
theorem ceilDiv_sub_one : ceilDiv (i * fw + fw) wb - 1 = (i * fw + fw - 1) / wb := by
  have shifted : i * fw + fw + wb - 1 = i * fw + fw - 1 + wb := by omega
  rw [ceilDiv, shifted, Nat.add_div_right _ (by omega), Nat.add_sub_cancel]

end

/-- Settles O22, by the shifts of the span and by its last word. -/
theorem locateGivesTheSpan : Obligations.LocateGivesTheSpan := by
  intro wb fw i h1 h2
  have inWord := spanOffset_lt (wb := wb) fw i (by omega)
  refine ⟨rfl, rfl, by omega, spanInOneWord_iff, ?oneWord, ?twoWords, ceilDiv_sub_one h1 h2, ?atMostNext,
    ?oneIffLast, ?boundary⟩
  case oneWord =>
    intro one
    have fill := spanShift_add one
    exact ⟨fill, by omega⟩
  case twoWords =>
    intro two
    have high := spanHigh_add (wb := wb) fw i (by omega)
    obtain ⟨parts, low⟩ := spanHigh_add_spanLow (by omega) two
    omega
  case atMostNext =>
    cases span : spanInOneWord wb fw i with
    | true => exact (lastWord_oneWord h1 span).le.trans (Nat.le_succ _)
    | false => exact (lastWord_twoWords h1 h2 span).le
  case oneIffLast =>
    cases span : spanInOneWord wb fw i with
    | true => simp [lastWord_oneWord h1 span]
    | false => simp [lastWord_twoWords h1 h2 span]
  case boundary =>
    intro ends
    have one := spanInOneWord_iff.2 ends.le
    have fill := spanShift_add one
    exact ⟨one, by omega⟩

/-- Settles O23: k0 and, when the span straddles, k0 + 1 are words of the span, and those lie in the buffer. -/
theorem inRangeSpanLiesInTheBuffer : Obligations.InRangeSpanLiesInTheBuffer := by
  intro wb fw cap i h1 h2 hi
  have inBuffer : ∀ k ∈ spanWords wb fw i, k < wordCount wb fw cap := fun _ hk => lt_wordCount_of_mem_spanWords h1 h2 hi hk
  exact ⟨inBuffer _ (mem_spanWords.2 (.inl rfl)), fun two => inBuffer _ (mem_spanWords.2 (.inr ⟨two, rfl⟩)), inBuffer⟩

end Sys2Proof.Machine
end

section
/-! insert(i, v) bit by bit over the stream: the positions of span i hold the value, every other position keeps its bit
(41_packed_array.md R104, R118). -/

namespace Sys2Proof.Machine

/-! ### One word -/

/-- Word `x` with the `n` bits from bit `sh` up replaced by `y`, as insert writes it (41_packed_array.md R104). -/
def putBits (wb n sh x y : Nat) : Nat := (x &&& complement wb (mask n <<< sh)) ||| (y <<< sh)

/-- The replaced bits are those of `y`, and every other bit is that of `x` (41_packed_array.md R104). -/
theorem testBit_putBits {wb n sh x y b : Nat} (hn : n + sh ≤ wb) (hy : y < 2 ^ n) (hb : b < wb) :
    (putBits wb n sh x y).testBit b = if sh ≤ b ∧ b < sh + n then y.testBit (b - sh) else x.testBit b := by
  have maskWord : mask n <<< sh < 2 ^ wb := by
    rw [Nat.shiftLeft_eq]
    calc mask n * 2 ^ sh < 2 ^ n * 2 ^ sh := Nat.mul_lt_mul_of_pos_right (mask_lt n) (Nat.two_pow_pos sh)
      _ = 2 ^ (n + sh) := (Nat.pow_add 2 n sh).symm
      _ ≤ 2 ^ wb := Nat.pow_le_pow_right (by decide) hn
  unfold putBits
  rw [Nat.testBit_lor, Nat.testBit_land, testBit_complement maskWord, Nat.testBit_shiftLeft, Nat.testBit_shiftLeft, testBit_mask]
  split_ifs with inside
  · obtain ⟨low, high⟩ := inside
    simp [low, show b - sh < n by omega]
  · rcases Nat.lt_or_ge b sh with low | low
    · simp [hb, Nat.not_le.2 low]
    · have above : y.testBit (b - sh) = false :=
        Nat.testBit_lt_two_pow (Nat.lt_of_lt_of_le hy (Nat.pow_le_pow_right (by decide) (by omega)))
      simp [hb, above, show ¬b - sh < n by omega]

theorem fieldWrites_oneWord_eq {wb fw i : Nat} (h : spanInOneWord wb fw i = true) (v : Nat) (rd : Nat → Nat) :
    fieldWrites wb fw i v rd = [(spanWord wb fw i, putBits wb fw (spanShift wb fw i) (rd (spanWord wb fw i)) v)] :=
  if_pos h

theorem fieldWrites_twoWords_eq {wb fw i : Nat} (h : spanInOneWord wb fw i = false) (v : Nat) (rd : Nat → Nat) :
    fieldWrites wb fw i v rd =
      [(spanWord wb fw i, putBits wb (spanHigh wb fw i) 0 (rd (spanWord wb fw i)) (v >>> spanLow wb fw i)),
       (spanWord wb fw i + 1, putBits wb (spanLow wb fw i) (wb - spanLow wb fw i) (rd (spanWord wb fw i + 1))
         (v &&& mask (spanLow wb fw i)))] :=
  if_neg (by simp [h])

/-- The stream position of a bit that lies `n` bits from `sh` up in its word, after those bits are replaced by `y`. -/
theorem streamBit_of_putBits {wb n sh y pos : Nat} {rd rd' : Nat → Nat} (hwb : 0 < wb) (hn : n + sh ≤ wb) (hy : y < 2 ^ n)
    (h : rd' (pos / wb) = putBits wb n sh (rd (pos / wb)) y) :
    streamBit wb rd' pos =
      if pos / wb * wb + wb ≤ pos + sh + n ∧ pos + sh < pos / wb * wb + wb then
        y.testBit (pos / wb * wb + wb - 1 - sh - pos)
      else streamBit wb rd pos := by
  have inWord := Nat.mod_lt pos hwb
  have position : pos / wb * wb + pos % wb = pos := Nat.div_add_mod' pos wb
  have bit : pos / wb * wb + wb - 1 - sh - pos = wb - 1 - pos % wb - sh := by omega
  unfold streamBit
  rw [h, testBit_putBits hn hy (by omega), bit]
  exact if_congr (by omega) rfl rfl

/-! ### The positions of a span -/

/-- Stream position `pos` lies in span `i` (20_memory.md R52). -/
abbrev InSpan (fw i pos : Nat) : Prop := i * fw ≤ pos ∧ pos < (i + 1) * fw

/-- A stream position lies in the span of one index alone (20_memory.md R52). -/
theorem InSpan.div_eq {fw i pos : Nat} (h : InSpan fw i pos) : pos / fw = i := Nat.div_eq_of_lt_le h.1 h.2

/-- A tail bit lies in no in-range span (20_memory.md R53). -/
theorem not_inSpan_of_tail {fw cap i pos : Nat} (hi : i < cap) (tail : fw * cap ≤ pos) : ¬InSpan fw i pos := by
  rintro ⟨-, last⟩
  have spanEnd : (i + 1) * fw ≤ fw * cap := Nat.mul_comm fw cap ▸ Nat.mul_le_mul_right fw hi
  omega

/-! ### The words after an insert -/

/-- The storage words after insert(i, v) over the words `rd` (41_packed_array.md R104). -/
def insertedWords (wb fw i v : Nat) (rd : Nat → Nat) (k : Nat) : Nat := ((fieldWrites wb fw i v rd).lookup k).getD (rd k)

theorem storageWord_insertField_eq (s : State) (i v : Nat) :
    storageWord (s.insertField i v) = insertedWords s.params.wb s.fw i v (storageWord s) :=
  funext (storageWord_insertField s i v)

/-- insert(i, v) keeps every word outside the span (41_packed_array.md R104). -/
theorem insertedWords_of_not_mem {wb fw i k : Nat} (hk : k ∉ spanWords wb fw i) (v : Nat) (rd : Nat → Nat) :
    insertedWords wb fw i v rd k = rd k := by
  rw [← fieldWrites_addresses wb fw i v rd] at hk
  rw [insertedWords, lookup_eq_none_of_not_mem hk]
  rfl

/-- insert(i, v) leaves in each word of the span what it writes there (41_packed_array.md R104). -/
theorem insertedWords_of_mem {wb fw i v k x : Nat} {rd : Nat → Nat} (h : (k, x) ∈ fieldWrites wb fw i v rd) :
    insertedWords wb fw i v rd k = x := by
  have distinct : ((fieldWrites wb fw i v rd).map Prod.fst).Nodup := by
    rw [fieldWrites_addresses]
    exact spanWords_nodup wb fw i
  rw [insertedWords, lookup_of_mem_of_nodup distinct h]
  rfl

theorem insertedWords_oneWord {wb fw i : Nat} (h : spanInOneWord wb fw i = true) (v : Nat) (rd : Nat → Nat) :
    insertedWords wb fw i v rd (spanWord wb fw i) = putBits wb fw (spanShift wb fw i) (rd (spanWord wb fw i)) v :=
  insertedWords_of_mem (by simp [fieldWrites_oneWord_eq h])

theorem insertedWords_firstWord {wb fw i : Nat} (h : spanInOneWord wb fw i = false) (v : Nat) (rd : Nat → Nat) :
    insertedWords wb fw i v rd (spanWord wb fw i) =
      putBits wb (spanHigh wb fw i) 0 (rd (spanWord wb fw i)) (v >>> spanLow wb fw i) :=
  insertedWords_of_mem (by simp [fieldWrites_twoWords_eq h])

theorem insertedWords_secondWord {wb fw i : Nat} (h : spanInOneWord wb fw i = false) (v : Nat) (rd : Nat → Nat) :
    insertedWords wb fw i v rd (spanWord wb fw i + 1) =
      putBits wb (spanLow wb fw i) (wb - spanLow wb fw i) (rd (spanWord wb fw i + 1)) (v &&& mask (spanLow wb fw i)) :=
  insertedWords_of_mem (by simp [fieldWrites_twoWords_eq h])

section
variable {wb fw i v : Nat} (h1 : 1 ≤ fw) (h2 : fw ≤ wb) {rd : Nat → Nat}
include h1 h2

theorem insertedWords_lt (hv : v < 2 ^ fw) (hr : ∀ k, rd k < 2 ^ wb) (k : Nat) : insertedWords wb fw i v rd k < 2 ^ wb :=
  getD_lookup_lt (fieldWrites_lt h1 h2 hv hr) (hr k) k

/-! ### The stream after an insert -/

/-- The words of a span hold all its positions (41_packed_array.md R101). -/
theorem mem_spanWords_of_inSpan {pos : Nat} (h : InSpan fw i pos) : pos / wb ∈ spanWords wb fw i := by
  obtain ⟨first, last⟩ := h
  rw [Nat.add_one_mul] at last
  have lower : spanWord wb fw i ≤ pos / wb := Nat.div_le_div_right first
  have upper : pos / wb ≤ (i * fw + fw - 1) / wb := Nat.div_le_div_right (by omega)
  rw [mem_spanWords]
  cases span : spanInOneWord wb fw i with
  | true =>
    rw [lastWord_oneWord h1 span] at upper
    exact .inl (by omega)
  | false =>
    rw [lastWord_twoWords h1 h2 span] at upper
    rcases Nat.eq_or_lt_of_le lower with k0 | k0
    · exact .inl k0.symm
    · exact .inr ⟨rfl, by omega⟩

theorem streamBit_insertedWords_oneWord (hv : v < 2 ^ fw) {pos : Nat} (h : spanInOneWord wb fw i = true)
    (hk : pos / wb = spanWord wb fw i) :
    streamBit wb (insertedWords wb fw i v rd) pos =
      if InSpan fw i pos then v.testBit ((i + 1) * fw - 1 - pos) else streamBit wb rd pos := by
  have start := span_start wb fw i
  have spanEnd := Nat.add_one_mul i fw
  have fill := spanShift_add h
  rw [streamBit_of_putBits (by omega) (by omega) hv (hk ▸ insertedWords_oneWord h v rd), hk]
  exact if_congr (by unfold InSpan; omega) (congrArg v.testBit (by omega)) rfl

theorem streamBit_insertedWords_firstWord (hv : v < 2 ^ fw) {pos : Nat} (h : spanInOneWord wb fw i = false)
    (hk : pos / wb = spanWord wb fw i) :
    streamBit wb (insertedWords wb fw i v rd) pos =
      if InSpan fw i pos then v.testBit ((i + 1) * fw - 1 - pos) else streamBit wb rd pos := by
  have start := span_start wb fw i
  have spanEnd := Nat.add_one_mul i fw
  have inWord := Nat.mod_lt pos (show 0 < wb by omega)
  have position : spanWord wb fw i * wb + pos % wb = pos := hk ▸ Nat.div_add_mod' pos wb
  have high := spanHigh_add (wb := wb) fw i (by omega)
  obtain ⟨parts, -⟩ := spanHigh_add_spanLow (by omega) h
  have narrow : v >>> spanLow wb fw i < 2 ^ spanHigh wb fw i := by
    rw [Nat.shiftRight_eq_div_pow, Nat.div_lt_iff_lt_mul (Nat.two_pow_pos _), ← Nat.pow_add, parts]
    exact hv
  rw [streamBit_of_putBits (by omega) (by omega) narrow (hk ▸ insertedWords_firstWord h v rd), hk,
    Nat.testBit_shiftRight]
  exact if_congr (by unfold InSpan; omega) (congrArg v.testBit (by omega)) rfl

theorem streamBit_insertedWords_secondWord {pos : Nat} (h : spanInOneWord wb fw i = false)
    (hk : pos / wb = spanWord wb fw i + 1) :
    streamBit wb (insertedWords wb fw i v rd) pos =
      if InSpan fw i pos then v.testBit ((i + 1) * fw - 1 - pos) else streamBit wb rd pos := by
  have start := span_start wb fw i
  have spanEnd := Nat.add_one_mul i fw
  have wordEnd := Nat.add_one_mul (spanWord wb fw i) wb
  have position : (spanWord wb fw i + 1) * wb + pos % wb = pos := hk ▸ Nat.div_add_mod' pos wb
  have high := spanHigh_add (wb := wb) fw i (by omega)
  obtain ⟨parts, -⟩ := spanHigh_add_spanLow (by omega) h
  have narrow : v &&& mask (spanLow wb fw i) < 2 ^ spanLow wb fw i := Nat.lt_of_le_of_lt Nat.and_le_right (mask_lt _)
  rw [streamBit_of_putBits (by omega) (by omega) narrow (hk ▸ insertedWords_secondWord h v rd), hk,
    Nat.testBit_land, testBit_mask]
  refine ite_congr (propext (by unfold InSpan; omega)) (fun inside => ?_) fun _ => rfl
  obtain ⟨first, last⟩ := inside
  have bit : (spanWord wb fw i + 1) * wb + wb - 1 - (wb - spanLow wb fw i) - pos = (i + 1) * fw - 1 - pos := by omega
  rw [bit, decide_eq_true (show (i + 1) * fw - 1 - pos < spanLow wb fw i by omega), Bool.and_true]

/-- After insert(i, v) the positions of span i hold v, most significant bit first, and every other position its bit from before
(41_packed_array.md R118). -/
theorem streamBit_insertedWords (hv : v < 2 ^ fw) (rd : Nat → Nat) (pos : Nat) :
    streamBit wb (insertedWords wb fw i v rd) pos =
      if InSpan fw i pos then v.testBit ((i + 1) * fw - 1 - pos) else streamBit wb rd pos := by
  by_cases touched : pos / wb ∈ spanWords wb fw i
  · cases span : spanInOneWord wb fw i with
    | true =>
      rw [spanWords_oneWord span, List.mem_singleton] at touched
      exact streamBit_insertedWords_oneWord h1 h2 hv span touched
    | false =>
      rw [spanWords_twoWords span, List.mem_pair] at touched
      rcases touched with first | second
      · exact streamBit_insertedWords_firstWord h1 h2 hv span first
      · exact streamBit_insertedWords_secondWord h1 h2 span second
  · rw [if_neg (mt (mem_spanWords_of_inSpan h1 h2) touched)]
    unfold streamBit
    rw [insertedWords_of_not_mem touched]

/-- V(i) after insert(i, v) is v (41_packed_array.md R118). -/
theorem layoutValue_insertedWords (hv : v < 2 ^ fw) (rd : Nat → Nat) :
    layoutValue wb fw i (insertedWords wb fw i v rd) = v := by
  apply Nat.eq_of_testBit_eq
  intro b
  rw [testBit_layoutValue]
  rcases Nat.lt_or_ge b fw with hb | hb
  · have spanEnd := Nat.add_one_mul i fw
    have inside : InSpan fw i (i * fw + (fw - 1 - b)) := by unfold InSpan; omega
    have bit : (i + 1) * fw - 1 - (i * fw + (fw - 1 - b)) = b := by omega
    rw [streamBit_insertedWords h1 h2 hv, if_pos inside, bit, decide_eq_true hb, Bool.true_and]
  · rw [Nat.testBit_lt_two_pow (Nat.lt_of_lt_of_le hv (Nat.pow_le_pow_right (by decide) hb))]
    simp [Nat.not_lt.2 hb]

end

/-- Settles O24, from extract(i) as the layout's value and the stream bits after insert(i, v). -/
theorem extractAndInsertAgreeWithTheLayout : Obligations.ExtractAndInsertAgreeWithTheLayout := by
  intro wb fw i v rd rd' h1 h2 hv hr after
  obtain rfl : rd' = insertedWords wb fw i v rd := funext after
  refine ⟨extractField_eq_layoutValue h1 h2 hr, layoutValue_insertedWords h1 h2 hv rd, fun pos outside => ?_,
    insertedWords_lt h1 h2 hv hr⟩
  rw [streamBit_insertedWords h1 h2 hv, if_neg (by unfold InSpan; omega)]

end Sys2Proof.Machine
end

section
/-! The packed-array commands: the statuses of their checks, and the state each leaves (41_packed_array.md R105 to R117). -/

namespace Sys2Proof.Machine

/-! ### Commands whose checks fail -/

theorem validWidth_eq_false {wb w : Nat} (h : w = 0 ∨ wb < w) : validWidth wb w = false := by
  rw [Bool.eq_false_iff, ne_eq, validWidth_iff]
  omega

theorem cfgoStatus_width {p : Params} {w : Nat} (c : Nat) (h : w = 0 ∨ p.wb < w) : cfgoStatus p w c = .width := by
  simp [cfgoStatus, validWidth_eq_false h]

theorem cfgoStatus_space {p : Params} {w c : Nat} (width : 1 ≤ w ∧ w ≤ p.wb) (h : p.ownedWords < wordCount p.wb w c) :
    cfgoStatus p w c = .space := by
  simp [cfgoStatus, validWidth_iff.2 width, h]

theorem cfgbStatus_width {p : Params} {w : Nat} (c b : Nat) (h : w = 0 ∨ p.wb < w) : cfgbStatus p w c b = .width := by
  simp [cfgbStatus, validWidth_eq_false h]

theorem cfgbStatus_base {p : Params} {w c b : Nat} (width : 1 ≤ w ∧ w ≤ p.wb)
    (h : 2 ^ p.xaddrBits ≤ b ∨ 2 ^ p.xaddrBits < b + wordCount p.wb w c) : cfgbStatus p w c b = .base := by
  have outside : baseFits p b (wordCount p.wb w c) = false := by
    rw [Bool.eq_false_iff, ne_eq, baseFits_iff]
    omega
  simp [cfgbStatus, validWidth_iff.2 width, outside]

/-- A command whose checks fail responds the status, with no effect (60_exceptions.md R170). -/
theorem exec_of_failed {s : State} {i : Instr} (failed : commandStatus s i ≠ .ok) :
    exec i s = .next (s.addResponse ⟨commandStatus s i, 0⟩) := by
  cases i with
  | cfgo | cfgb | get | write | rank | pctfill => exact if_neg failed
  | release | popcnt => exact absurd rfl failed
  | reserved0 | reserved9 | reservedA | reservedB | reservedC | reservedD | reservedE | reservedF => rfl

theorem exec_of_status {s : State} {i : Instr} {st : Status} (h : commandStatus s i = st) (failed : st ≠ .ok) :
    exec i s = .next (s.addResponse ⟨st, 0⟩) := by
  subst h
  exact exec_of_failed failed

/-- GET and WRITE with no live structure (41_packed_array.md R111, R112). -/
theorem exec_access_noCfg {s : State} (hc : s.cfgValid = false) (i v : Nat) :
    exec (.get i) s = .next (s.addResponse ⟨.noCfg, 0⟩) ∧ exec (.write i v) s = .next (s.addResponse ⟨.noCfg, 0⟩) :=
  ⟨exec_of_status (accessStatus_noCfg i hc) (by decide), exec_of_status (accessStatus_noCfg i hc) (by decide)⟩

/-- GET and WRITE out of range (41_packed_array.md R111, R112). -/
theorem exec_access_range {s : State} (hc : s.cfgValid = true) {i : Nat} (hi : s.cap ≤ i) (v : Nat) :
    exec (.get i) s = .next (s.addResponse ⟨.range, 0⟩) ∧ exec (.write i v) s = .next (s.addResponse ⟨.range, 0⟩) :=
  ⟨exec_of_status (accessStatus_range hc hi) (by decide), exec_of_status (accessStatus_range hc hi) (by decide)⟩

/-- GET and WRITE with no live structure make no access (41_packed_array.md R111, R112). -/
theorem xmAccesses_noCfg {s : State} (hc : s.cfgValid = false) (i v : Nat) :
    xmAccesses (.get i) s = [] ∧ xmAccesses (.write i v) s = [] :=
  xmAccesses_eq_nil_of_accessStatus (by simp [accessStatus_noCfg i hc]) v

/-- GET and WRITE out of range make no access (41_packed_array.md R111, R112). -/
theorem xmAccesses_range {s : State} (hc : s.cfgValid = true) {i : Nat} (hi : s.cap ≤ i) (v : Nat) :
    xmAccesses (.get i) s = [] ∧ xmAccesses (.write i v) s = [] :=
  xmAccesses_eq_nil_of_accessStatus (by simp [accessStatus_range hc hi]) v

/-! ### Storage that stays as it was -/

theorem sameXmem_of_xmem_eq {s t : State} (h : t.xmem = s.xmem) : s.sameXmem t :=
  fun a => congrArg (Memory.word · a) h

/-- ORAM, its unspecified words included, reads the same when neither its list nor its draw changed (10_state.md R30). -/
theorem sameOram_of_eq {s t : State} (oram : t.oram = s.oram) (draws : t.draws = s.draws) (params : t.params = s.params) :
    s.sameOram t := by
  intro k
  unfold oramWord
  rw [oram, draws, params]

/-- With no live owned structure nothing is forgotten (41_packed_array.md R113). -/
theorem forgetOwned_of_not_owned {s : State} (h : s.cfgValid = false ∨ s.mode = .borrowed) : s.forgetOwned = s := by
  unfold State.forgetOwned
  rcases h with hc | hm
  · simp [hc]
  · simp [hm]

/-- The words of a live owned structure have no stated value once it ends (41_packed_array.md R113). -/
theorem lookup_forgetOwned_of_owned {s : State} (hc : s.cfgValid = true) (hm : s.mode = .owned) (k : Nat) :
    Memory.lookup s.forgetOwned.oram k = none := by
  rw [State.forgetOwned_oram, if_pos ⟨hc, hm⟩]
  rfl

/-- Destroying when nothing is live changes nothing (41_packed_array.md R113). -/
theorem retire_of_not_live {s : State} (hc : s.cfgValid = false) : s.retire = s := by
  rw [State.retire, forgetOwned_of_not_owned (.inl hc), ← hc]

/-! ### CFGO and CFGB -/

/-- The state after a CFGO that passes its checks (41_packed_array.md R109). -/
def State.afterCfgo (s : State) (w c : Nat) : State :=
  ((s.install .owned w c s.base).zeroFill (wordCount s.params.wb w c)).addResponse ⟨.ok, 0⟩

@[simp] theorem State.afterCfgo_params (s : State) (w c : Nat) : (s.afterCfgo w c).params = s.params := by simp [State.afterCfgo]
@[simp] theorem State.afterCfgo_cfgValid (s : State) (w c : Nat) : (s.afterCfgo w c).cfgValid = true := rfl
@[simp] theorem State.afterCfgo_mode (s : State) (w c : Nat) : (s.afterCfgo w c).mode = .owned := rfl
@[simp] theorem State.afterCfgo_fw (s : State) (w c : Nat) : (s.afterCfgo w c).fw = w := rfl
@[simp] theorem State.afterCfgo_cap (s : State) (w c : Nat) : (s.afterCfgo w c).cap = c := rfl
@[simp] theorem State.afterCfgo_oram (s : State) (w c : Nat) :
    (s.afterCfgo w c).oram = Memory.zeros (wordCount s.params.wb w c) := rfl
@[simp] theorem State.afterCfgo_xmem (s : State) (w c : Nat) : (s.afterCfgo w c).xmem = s.xmem := by simp [State.afterCfgo]
@[simp] theorem State.afterCfgo_phase (s : State) (w c : Nat) : (s.afterCfgo w c).phase = s.phase := by simp [State.afterCfgo]
@[simp] theorem State.afterCfgo_input (s : State) (w c : Nat) : (s.afterCfgo w c).input = s.input := by simp [State.afterCfgo]
@[simp] theorem State.afterCfgo_rsps (s : State) (w c : Nat) : (s.afterCfgo w c).rsps = ⟨.ok, 0⟩ :: s.rsps := by
  simp [State.afterCfgo]

/-- A CFGO that passes its checks makes the structure live (41_packed_array.md R109). -/
theorem exec_cfgo {s : State} {w c : Nat} (width : 1 ≤ w ∧ w ≤ s.params.wb)
    (fits : wordCount s.params.wb w c ≤ s.params.ownedWords) : exec (.cfgo w c) s = .next (s.afterCfgo w c) :=
  if_pos (cfgoStatus_ok_iff.2 ⟨width, fits⟩)

/-- A CFGB that passes its checks makes the structure live (41_packed_array.md R110). -/
theorem exec_cfgb {s : State} {w c b : Nat} (width : 1 ≤ w ∧ w ≤ s.params.wb) (hb : b < 2 ^ s.params.xaddrBits)
    (fits : b + wordCount s.params.wb w c ≤ 2 ^ s.params.xaddrBits) :
    exec (.cfgb w c b) s = .next ((s.install .borrowed w c b).addResponse ⟨.ok, 0⟩) :=
  if_pos (cfgbStatus_ok_iff.2 ⟨width, hb, fits⟩)

/-- A full-width structure takes one word an element (41_packed_array.md R109). -/
theorem ceilDiv_mul_self {wb : Nat} (c : Nat) (h : 0 < wb) : ceilDiv (wb * c) wb = c := by
  rw [ceilDiv, Nat.add_sub_assoc h, Nat.mul_add_div h, Nat.div_eq_of_lt (Nat.sub_lt h Nat.one_pos), Nat.add_zero]

/-- Settles O25: the checks in order, and the fields of the structure that a passing CFGO makes live. -/
theorem cfgoConstructsAnOwnedStructure : Obligations.CfgoConstructsAnOwnedStructure := by
  rintro s w c n rfl
  refine ⟨?width, ?space, ?success⟩
  case width => exact fun invalid => exec_of_status (cfgoStatus_width c invalid) (by decide)
  case space => exact fun h1 h2 tooLarge => exec_of_status (cfgoStatus_space ⟨h1, h2⟩ tooLarge) (by decide)
  case success =>
    intro h1 h2 fits
    refine ⟨_, exec_cfgo ⟨h1, h2⟩ fits, ?_, rfl, rfl, rfl, rfl, rfl, ?zeros, ?unstated, ?_, ?_, ?empty, ?fullWidth⟩
    · simp [State.responded]
    case zeros => exact fun k hk => by simp [wordCount, hk]
    case unstated => exact fun k hk => by simp [wordCount, Nat.not_lt.2 hk]
    · exact sameXmem_of_xmem_eq (by simp)
    · simp [State.samePorts]
    case empty =>
      rintro rfl i v
      exact exec_access_range rfl (Nat.zero_le i) v
    case fullWidth =>
      rintro rfl
      exact ceilDiv_mul_self c h1

/-- Settles O26: the checks in order, and the fields of the structure that a passing CFGB makes live. -/
theorem cfgbConstructsABorrowedStructure : Obligations.CfgbConstructsABorrowedStructure := by
  rintro s w c b n rfl
  refine ⟨?width, ?base, ?success⟩
  case width => exact fun invalid => exec_of_status (cfgbStatus_width c b invalid) (by decide)
  case base => exact fun h1 h2 outside => exec_of_status (cfgbStatus_base ⟨h1, h2⟩ outside) (by decide)
  case success =>
    intro h1 h2 hb fits
    refine ⟨_, exec_cfgb ⟨h1, h2⟩ hb fits, ?_, rfl, rfl, rfl, rfl, rfl, ?_, ?_, rfl, ?ends, ?kept⟩
    · simp [State.responded]
    · exact sameXmem_of_xmem_eq (by simp)
    · simp [State.samePorts]
    case ends => exact fun hc hm k => lookup_forgetOwned_of_owned hc hm k
    case kept =>
      intro notOwned
      have forgets := forgetOwned_of_not_owned notOwned
      exact sameOram_of_eq (by simp [forgets]) (by simp [forgets]) (by simp)

/-! ### RELEASE -/

/-- Settles O29: the state after RELEASE is `s.retire` with the response. -/
theorem releaseEndsTheStructure : Obligations.ReleaseEndsTheStructure := by
  intro s
  have runs : exec .release s = .next (s.retire.addResponse ⟨.ok, 0⟩) := rfl
  refine ⟨⟨_, runs, ?_, rfl, ?_, ?_, ?_, ?_, ?_, ?_, ?ends, ?kept, ?get, ?write⟩, ?noOp⟩
  · simp [State.responded]
  · simp
  · simp
  · simp
  · simp
  · exact sameXmem_of_xmem_eq (by simp)
  · simp [State.samePorts]
  case ends => exact fun hc hm k => lookup_forgetOwned_of_owned hc hm k
  case kept =>
    intro notOwned
    have forgets := forgetOwned_of_not_owned notOwned
    exact sameOram_of_eq (by simp [forgets]) (by simp [forgets]) (by simp)
  case get => exact fun i => (exec_access_noCfg rfl i 0).1
  case write => exact fun i v => (exec_access_noCfg rfl i v).2
  case noOp =>
    intro hc
    rw [runs, retire_of_not_live hc]

/-! ### GET -/

theorem layoutValue_lt {wb fw i : Nat} {rd : Nat → Nat} (h1 : 1 ≤ fw) (h2 : fw ≤ wb) (hr : ∀ k, rd k < 2 ^ wb) :
    layoutValue wb fw i rd < 2 ^ fw :=
  extractField_eq_layoutValue h1 h2 hr ▸ extractField_lt h1 h2 hr

/-- Settles O27, by the status of the access. -/
theorem getRespondsTheLayoutValue : Obligations.GetRespondsTheLayoutValue := by
  intro s i
  refine ⟨?noCfg, ?range, ?ok⟩
  case noCfg => exact fun hc => ⟨(exec_access_noCfg hc i 0).1, (xmAccesses_noCfg hc i 0).1⟩
  case range => exact fun hc hi => ⟨(exec_access_range hc hi 0).1, (xmAccesses_range hc hi 0).1⟩
  case ok =>
    intro legal hc hi
    obtain ⟨h1, h2⟩ := legal.widthLegal hc
    exact ⟨legal.exec_get hc hi, layoutValue_lt h1 h2 (storageWord_lt legal), fun hm => xmAccesses_get_borrowed hm hc hi⟩

/-! ### A fresh owned structure -/

/-- The structure a passing CFGO makes live meets the configuration invariant (41_packed_array.md R109). -/
theorem configOk_afterCfgo {s : State} {w c : Nat} (width : 1 ≤ w ∧ w ≤ s.params.wb)
    (fits : wordCount s.params.wb w c ≤ s.params.ownedWords) : (s.afterCfgo w c).ConfigOk := by
  simp [State.ConfigOk, State.nw, width, fits]

/-- extract(i) over zero words is 0 (41_packed_array.md R103). -/
theorem extractField_eq_zero {wb fw i : Nat} {rd : Nat → Nat} (h : ∀ k ∈ spanWords wb fw i, rd k = 0) :
    extractField wb fw i rd = 0 := by
  cases span : spanInOneWord wb fw i with
  | true =>
    rw [spanWords_oneWord span] at h
    simp [extractField_oneWord span, h]
  | false =>
    rw [spanWords_twoWords span] at h
    simp [extractField_twoWords span, h]

/-- Every word of a fresh owned structure reads 0 (41_packed_array.md R108). -/
theorem storageWord_afterCfgo {s : State} {w c k : Nat} (hk : k < wordCount s.params.wb w c) :
    storageWord (s.afterCfgo w c) k = 0 := by
  show oramWord (s.afterCfgo w c) k = 0
  simp [oramWord, hk]

/-- Settles O32: an in-range span lies in the words that CFGO fills with zeros. -/
theorem freshOwnedStructureReadsZero : Obligations.FreshOwnedStructureReadsZero := by
  intro s w c h1 h2 fits
  refine ⟨_, exec_cfgo ⟨h1, h2⟩ fits, fun i hi => ?_⟩
  have zero : readField (s.afterCfgo w c) i = 0 := extractField_eq_zero fun k hk =>
    storageWord_afterCfgo (lt_wordCount_of_mem_spanWords h1 h2 hi (by simpa using hk))
  rw [(configOk_afterCfgo ⟨h1, h2⟩ fits).exec_get rfl hi, zero]

/-! ### WRITE -/

/-- The state after a WRITE that passes its checks (41_packed_array.md R112). -/
def State.afterWrite (s : State) (i v : Nat) : State := (s.insertField i (trunc s.fw v)).addResponse ⟨.ok, 0⟩

/-- WRITE of an in-range index inserts the truncated value (41_packed_array.md R112). -/
theorem State.ConfigOk.exec_write {s : State} (hs : s.ConfigOk) (hc : s.cfgValid = true) {i : Nat} (hi : i < s.cap) (v : Nat) :
    exec (.write i v) s = .next (s.afterWrite i v) := by
  show execWrite i v s = _
  unfold execWrite
  rw [if_pos (accessStatus_ok_iff.2 ⟨hc, hi⟩), hs.spanFault_eq_none hc hi]
  rfl

@[simp] theorem State.afterWrite_params (s : State) (i v : Nat) : (s.afterWrite i v).params = s.params := by
  simp [State.afterWrite]
@[simp] theorem State.afterWrite_cfgValid (s : State) (i v : Nat) : (s.afterWrite i v).cfgValid = s.cfgValid := by
  simp [State.afterWrite]
@[simp] theorem State.afterWrite_mode (s : State) (i v : Nat) : (s.afterWrite i v).mode = s.mode := by simp [State.afterWrite]
@[simp] theorem State.afterWrite_fw (s : State) (i v : Nat) : (s.afterWrite i v).fw = s.fw := by simp [State.afterWrite]
@[simp] theorem State.afterWrite_cap (s : State) (i v : Nat) : (s.afterWrite i v).cap = s.cap := by simp [State.afterWrite]
@[simp] theorem State.afterWrite_phase (s : State) (i v : Nat) : (s.afterWrite i v).phase = s.phase := by simp [State.afterWrite]
@[simp] theorem State.afterWrite_input (s : State) (i v : Nat) : (s.afterWrite i v).input = s.input := by simp [State.afterWrite]
@[simp] theorem State.afterWrite_rsps (s : State) (i v : Nat) : (s.afterWrite i v).rsps = ⟨.ok, 0⟩ :: s.rsps := by
  simp [State.afterWrite]
@[simp] theorem State.afterWrite_draws (s : State) (i v : Nat) : (s.afterWrite i v).draws = s.draws := by simp [State.afterWrite]

theorem State.Inv.afterWrite {s : State} (h : s.Inv) (hc : s.cfgValid = true) {i : Nat} (hi : i < s.cap) (v : Nat) :
    (s.afterWrite i v).Inv :=
  (h.insertInRange hc hi (trunc_lt _ _)).addStatus _

/-- S(k) after a WRITE (41_packed_array.md R104, R112). -/
theorem storageWord_afterWrite (s : State) (i v : Nat) :
    storageWord (s.afterWrite i v) = insertedWords s.params.wb s.fw i (trunc s.fw v) (storageWord s) :=
  storageWord_insertField_eq s i _

theorem storageWord_afterWrite_of_not_mem {s : State} {i k : Nat} (hk : k ∉ spanWords s.params.wb s.fw i) (v : Nat) :
    storageWord (s.afterWrite i v) k = storageWord s k := by
  rw [storageWord_afterWrite, insertedWords_of_not_mem hk]

theorem storageWord_owned {s : State} (hm : s.mode = .owned) : storageWord s = oramWord s := by
  funext k
  unfold storageWord
  rw [hm]

/-- GET of an in-range index after a WRITE responds V of the words after the insert. -/
theorem State.Inv.exec_get_afterWrite {s : State} (h : s.Inv) (hc : s.cfgValid = true) {i j : Nat} (hi : i < s.cap)
    (hj : j < s.cap) (v : Nat) :
    exec (.get j) (s.afterWrite i v) = .next ((s.afterWrite i v).addResponse
      ⟨.ok, layoutValue s.params.wb s.fw j (insertedWords s.params.wb s.fw i (trunc s.fw v) (storageWord s))⟩) := by
  rw [(h.afterWrite hc hi v).exec_get (by simpa) (by simpa), storageWord_afterWrite]
  simp

/-- Settles O28, by the status of the access, the stream bits after the insert, and the words it does not write. -/
theorem writeChangesExactlyTheSpan : Obligations.WriteChangesExactlyTheSpan := by
  intro s i v
  refine ⟨?noCfg, ?range, ?ok⟩
  case noCfg => exact fun hc => ⟨(exec_access_noCfg hc i v).2, (xmAccesses_noCfg hc i v).2⟩
  case range => exact fun hc hi => ⟨(exec_access_range hc hi v).2, (xmAccesses_range hc hi v).2⟩
  case ok =>
    intro legal hc hi
    obtain ⟨h1, h2⟩ := legal.widthLegal hc
    refine ⟨_, legal.configOk.exec_write hc hi v, ?_, insertField_sameConfig s i _, ?_, ?stream, ?owned, ?borrowed⟩
    · simp [State.responded]
    · simp [State.samePorts]
    case stream =>
      intro pos _
      rw [storageWord_afterWrite]
      exact streamBit_insertedWords h1 h2 (trunc_lt _ _) _ pos
    case owned =>
      intro hm
      refine ⟨sameXmem_of_xmem_eq (setStorageWords_xmem_owned s _ hm), fun k hk => ?_⟩
      rw [← storageWord_owned hm, ← storageWord_owned (s := s.afterWrite i v) (by simpa),
        storageWord_afterWrite_of_not_mem hk]
    case borrowed =>
      intro hm
      refine ⟨sameOram_of_eq (setStorageWords_oram_borrowed s _ hm) (by simp) (by simp),
        fun a ha => setStorageWords_xmemWord_of_not_mem s _ hm a ?_⟩
      rw [fieldWrites_addresses]
      exact ha

/-- Settles O30: V(i) after the insert is the value inserted. -/
theorem writeThenGetReturnsTheTruncatedValue : Obligations.WriteThenGetReturnsTheTruncatedValue := by
  intro s i v legal hc hi
  obtain ⟨h1, h2⟩ := legal.widthLegal hc
  have truncated := legal.exec_get_afterWrite hc hi hi v
  rw [layoutValue_insertedWords h1 h2 (trunc_lt _ _)] at truncated
  refine ⟨_, legal.configOk.exec_write hc hi v, truncated, fun fits => ?_⟩
  rwa [trunc, Nat.mod_eq_of_lt fits] at truncated

/-! ### Non-interference -/

/-- insert(i, v) keeps V(j) of every other index (41_packed_array.md R116). -/
theorem layoutValue_insertedWords_of_ne {wb fw i j v : Nat} (h1 : 1 ≤ fw) (h2 : fw ≤ wb) (hv : v < 2 ^ fw) (hj : j ≠ i)
    (rd : Nat → Nat) : layoutValue wb fw j (insertedWords wb fw i v rd) = layoutValue wb fw j rd := by
  apply Nat.eq_of_testBit_eq
  intro b
  rw [testBit_layoutValue, testBit_layoutValue]
  have spanEnd := Nat.add_one_mul j fw
  have ofJ : InSpan fw j (j * fw + (fw - 1 - b)) := by unfold InSpan; omega
  have notOfI : ¬InSpan fw i (j * fw + (fw - 1 - b)) := fun ofI => hj (ofJ.div_eq.symm.trans ofI.div_eq)
  rw [streamBit_insertedWords h1 h2 hv, if_neg notOfI]

/-- Settles O31: neither another index's span nor the tail has a position of span i. -/
theorem writeDoesNotInterfereWithOtherIndices : Obligations.WriteDoesNotInterfereWithOtherIndices := by
  intro s i v legal hc hi
  obtain ⟨h1, h2⟩ := legal.widthLegal hc
  refine ⟨_, legal.configOk.exec_write hc hi v, ?others, ?tail⟩
  case others =>
    intro j hj hne
    have after := legal.exec_get_afterWrite hc hi hj v
    rw [layoutValue_insertedWords_of_ne h1 h2 (trunc_lt _ _) hne] at after
    exact ⟨_, legal.exec_get hc hj, after⟩
  case tail =>
    intro pos tail _
    rw [storageWord_afterWrite, streamBit_insertedWords h1 h2 (trunc_lt _ _), if_neg (not_inSpan_of_tail hi tail)]

/-! ### The commands that change storage -/

/-- Only WRITE and PCTFILL change XMEM (20_memory.md R57). -/
theorem CommandEffect.sameXmem_or {s t : State} {i : Instr} (h : CommandEffect s i t) :
    s.sameXmem t ∨ (∃ j v, i = .write j v) ∨ ∃ w b, i = .pctfill w b := by
  cases h with
  | fails | get | rank | popcnt => exact .inl fun _ => rfl
  | release | cfgo | cfgb => exact .inl (sameXmem_of_xmem_eq (by simp))
  | write j v => exact .inr (.inl ⟨j, v, rfl⟩)
  | pctfill w b => exact .inr (.inr ⟨w, b, rfl⟩)

/-- A command other than CFGO and WRITE keeps the words of ORAM or ends a structure (10_state.md R30). -/
theorem CommandEffect.oram_or {s t : State} {i : Instr} (h : CommandEffect s i t) :
    t.oram = s.oram ∨ t.oram = s.forgetOwned.oram ∨ (∃ w c, i = .cfgo w c) ∨ ∃ j v, i = .write j v := by
  cases h with
  | fails | get | rank | popcnt => exact .inl rfl
  | release | cfgb => exact .inr (.inl rfl)
  | pctfill w b => exact .inr (.inl (fillTable_oram (s.install .borrowed w (2 ^ w) b) (2 ^ w) rfl))
  | cfgo w c => exact .inr (.inr (.inl ⟨w, c, rfl⟩))
  | write j v => exact .inr (.inr (.inr ⟨j, v, rfl⟩))

/-- Settles O19, by the effects of the commands; the end of a structure states no new word of ORAM. -/
theorem onlyTheNamedCommandsChangeStorage : Obligations.OnlyTheNamedCommandsChangeStorage := by
  intro s t i h
  have effect := exec_effect h
  constructor
  · intro a changed
    exact effect.sameXmem_or.resolve_left fun same => changed (same a)
  · intro k v stated new
    rcases effect.oram_or with same | ended | named
    · exact absurd (same ▸ stated) new
    · rw [ended] at stated
      rcases forgetOwned_lookup s k with unstated | kept
      · rw [unstated] at stated
        cases stated
      · exact absurd (kept ▸ stated) new
    · exact named

end Sys2Proof.Machine
end

section
/-! The SWAR fold counts bits: before step k every 2^k-bit lane holds the population count of that lane of the operand
(42_popcount_table.md R140 to R143, R148). -/

namespace Sys2Proof.Machine

/-! ### The population count -/

theorem popcountBelow_le (n v : Nat) : popcountBelow n v ≤ n := by
  induction n with
  | zero => exact Nat.le_refl 0
  | succ n ih =>
    rw [popcountBelow_succ]
    have bit := Bool.toNat_le (v.testBit n)
    omega

theorem popcount_le {n v : Nat} (h : v < 2 ^ n) : popcount v ≤ n :=
  popcount_eq_popcountBelow h ▸ popcountBelow_le n v

/-- The count of a w-bit pattern is a w-bit value (42_popcount_table.md R143). -/
theorem popcount_lt {w v : Nat} (h : v < 2 ^ w) : popcount v < 2 ^ w :=
  Nat.lt_of_le_of_lt (popcount_le h) Nat.lt_two_pow_self

/-- The count of the low n bits of v. -/
theorem popcount_mod_two_pow (n v : Nat) : popcount (v % 2 ^ n) = popcountBelow n v := by
  rw [popcount_eq_popcountBelow (Nat.mod_lt v (Nat.two_pow_pos n))]
  exact popcountBelow_congr fun b hb => by simp [hb]

/-- Settles O35, by the bound of the count. -/
theorem popcountOfAPatternFitsItsWidth : Obligations.PopcountOfAPatternFitsItsWidth :=
  fun _ _ _ hi => ⟨popcount_le hi, Nat.le_sub_one_of_lt Nat.lt_two_pow_self⟩

/-! ### The lane masks (42_popcount_table.md R140) -/

theorem testBit_laneMask (wb k b : Nat) :
    (laneMask wb k).testBit b = (decide (b < wb) && decide (b % 2 ^ (k + 1) < 2 ^ k)) :=
  testBit_laneMaskBelow k wb b

/-- Settles O33, by the bits of the masks; the six words are the masks computed. -/
theorem laneMaskIsTheLowHalfOfEveryLane : Obligations.LaneMaskIsTheLowHalfOfEveryLane :=
  ⟨testBit_laneMask, by decide, by decide, by decide, by decide, by decide, by decide⟩

/-! ### Lanes -/

/-- Lane `j` of the 2^k-bit lanes of `x` (42_popcount_table.md R142). -/
def lane (k x j : Nat) : Nat := (x >>> (j * 2 ^ k)) % 2 ^ 2 ^ k

theorem testBit_lane (k x j b : Nat) : (lane k x j).testBit b = (decide (b < 2 ^ k) && x.testBit (j * 2 ^ k + b)) := by
  rw [lane, Nat.testBit_mod_two_pow, Nat.testBit_shiftRight]

/-- A shift by one lane takes every lane to the one below. -/
theorem lane_shiftRight (k x j : Nat) : lane k (x >>> 2 ^ k) j = lane k x (j + 1) := by
  rw [lane, ← Nat.shiftRight_add, Nat.add_comm, ← Nat.add_one_mul, lane]

/-- The mask of step k leaves in each lane of twice the width its low half (42_popcount_table.md R140). -/
theorem lane_and_laneMask {wb k x : Nat} (hx : x < 2 ^ wb) (j : Nat) :
    lane (k + 1) (x &&& laneMask wb k) j = lane k x (2 * j) := by
  have start : 2 * j * 2 ^ k = j * 2 ^ (k + 1) := by rw [Nat.pow_succ]; ring
  have half : 2 ^ k < 2 ^ (k + 1) := Nat.pow_lt_pow_succ (by decide)
  apply Nat.eq_of_testBit_eq
  intro b
  rw [testBit_lane, testBit_lane, Nat.testBit_land, testBit_laneMask, start]
  rcases Nat.lt_or_ge b (2 ^ (k + 1)) with inLane | above
  · rw [Laws.lowest_field inLane]
    rcases Nat.lt_or_ge (j * 2 ^ (k + 1) + b) wb with inWord | outside
    · simp [inLane, inWord, Bool.and_comm]
    · have blank : x.testBit (j * 2 ^ (k + 1) + b) = false :=
        Nat.testBit_lt_two_pow (Nat.lt_of_lt_of_le hx (Nat.pow_le_pow_right (by decide) outside))
      simp [blank]
  · simp [Nat.not_lt.2 above, Nat.not_lt.2 (half.le.trans above)]

/-- Words whose lanes add within their width add without a carry out of the lanes below lane `j`. -/
theorem shiftRight_add_of_lanes {k a b : Nat} (h : ∀ j, lane k a j + lane k b j < 2 ^ 2 ^ k) (j : Nat) :
    (a + b) >>> (j * 2 ^ k) = a >>> (j * 2 ^ k) + b >>> (j * 2 ^ k) := by
  induction j with
  | zero => simp
  | succ j ih =>
    rw [Nat.succ_mul, Nat.shiftRight_add, ih, Nat.shiftRight_add, Nat.shiftRight_add, Nat.shiftRight_eq_div_pow,
      Nat.shiftRight_eq_div_pow _ (2 ^ k), Nat.shiftRight_eq_div_pow _ (2 ^ k)]
    exact Nat.add_div_eq_of_add_mod_lt (h j)

theorem lane_add {k a b : Nat} (h : ∀ j, lane k a j + lane k b j < 2 ^ 2 ^ k) (j : Nat) :
    lane k (a + b) j = lane k a j + lane k b j := by
  rw [lane, shiftRight_add_of_lanes h]
  exact Nat.add_mod_of_add_mod_lt (h j)

/-! ### The fold (42_popcount_table.md R141, R142) -/

/-- The add of one step does not carry out of the word. -/
theorem swarStep_sum_lt {wb x : Nat} (hx : x < 2 ^ wb) (k : Nat) :
    (x &&& laneMask wb k) + ((x >>> 2 ^ k) &&& laneMask wb k) < 2 ^ wb :=
  Nat.lt_of_le_of_lt (and_add_shiftRight_and_le (laneMask_and_shifted wb k) x) hx

/-- One step adds the two halves of every lane. -/
theorem lane_swarStep {wb k x : Nat} (hx : x < 2 ^ wb) (counts : ∀ j, lane k x j ≤ 2 ^ k) (j : Nat) :
    lane (k + 1) (swarStep wb k x) j = lane k x (2 * j) + lane k x (2 * j + 1) := by
  have low : ∀ j, lane (k + 1) (x &&& laneMask wb k) j = lane k x (2 * j) := lane_and_laneMask hx
  have high : ∀ j, lane (k + 1) ((x >>> 2 ^ k) &&& laneMask wb k) j = lane k x (2 * j + 1) := fun j => by
    rw [lane_and_laneMask (Nat.lt_of_le_of_lt (Nat.shiftRight_le _ _) hx), lane_shiftRight]
  have noCarry : ∀ j, lane k x (2 * j) + lane k x (2 * j + 1) < 2 ^ 2 ^ (k + 1) := fun j =>
    calc lane k x (2 * j) + lane k x (2 * j + 1) ≤ 2 ^ k + 2 ^ k := Nat.add_le_add (counts _) (counts _)
      _ = 2 ^ (k + 1) := by rw [Nat.pow_succ, Nat.mul_two]
      _ < 2 ^ 2 ^ (k + 1) := Nat.lt_two_pow_self
  rw [swarStep, trunc, Nat.mod_eq_of_lt (swarStep_sum_lt hx k),
    lane_add (fun j => by rw [low, high]; exact noCarry j), low, high]

theorem swarSteps_le (wb k x : Nat) : swarSteps wb k x ≤ x := by
  induction k with
  | zero => exact Nat.le_refl x
  | succ k ih => exact Nat.le_trans (swarStep_le wb k _) ih

theorem swarSteps_lt {wb x : Nat} (hx : x < 2 ^ wb) (k : Nat) : swarSteps wb k x < 2 ^ wb :=
  Nat.lt_of_le_of_lt (swarSteps_le wb k x) hx

/-- Before step k each 2^k-bit lane holds the count of that lane of the operand (42_popcount_table.md R142). -/
theorem lane_swarSteps {wb x : Nat} (hx : x < 2 ^ wb) (k j : Nat) :
    lane k (swarSteps wb k x) j = popcountBelow (2 ^ k) (x >>> (j * 2 ^ k)) := by
  induction k generalizing j with
  | zero =>
    show (x >>> (j * 1)) % 2 = popcountBelow 1 (x >>> (j * 1))
    rw [popcountBelow_succ, popcountBelow_zero_bits, Nat.zero_add, Nat.toNat_testBit, Nat.pow_zero, Nat.div_one]
  | succ k ih =>
    have counts : ∀ j, lane k (swarSteps wb k x) j ≤ 2 ^ k := fun j => ih j ▸ popcountBelow_le _ _
    have low : 2 * j * 2 ^ k = j * 2 ^ (k + 1) := by rw [Nat.pow_succ]; ring
    have high : (2 * j + 1) * 2 ^ k = j * 2 ^ (k + 1) + 2 ^ k := by rw [Nat.add_one_mul, low]
    rw [swarSteps, lane_swarStep (swarSteps_lt hx k) counts, ih, ih, low, high, Nat.shiftRight_add,
      ← popcountBelow_add, Nat.pow_succ, Nat.mul_two]

/-- The whole fold is the population count (42_popcount_table.md R142). -/
theorem swarPopcount_eq_popcount {wb x : Nat} (width : 2 ^ Nat.log2 wb = wb) (hx : x < 2 ^ wb) :
    swarPopcount wb x = popcount x := by
  have whole := lane_swarSteps hx (Nat.log2 wb) 0
  rw [lane, width, Nat.zero_mul, Nat.shiftRight_zero, Nat.shiftRight_zero, Nat.mod_eq_of_lt (swarSteps_lt hx _)] at whole
  rw [swarPopcount, whole, popcount_eq_popcountBelow hx]

/-- Settles O34, by the count in every lane before each step. -/
theorem swarLanesHoldTheirPopcounts : Obligations.SwarLanesHoldTheirPopcounts := by
  intro p x valid hx
  obtain ⟨width, -⟩ := valid
  refine ⟨fun k j _ _ => ?lanes, fun k _ => swarStep_sum_lt (swarSteps_lt hx k) k, swarPopcount_eq_popcount width hx,
    popcount_le hx⟩
  case lanes =>
    have count := lane_swarSteps hx k j
    have bound : lane k (swarSteps p.wb k x) j ≤ 2 ^ k := count ▸ popcountBelow_le _ _
    rw [popcount_mod_two_pow]
    exact ⟨count, bound⟩

/-! ### POPCNT -/

/-- Settles O36: POPCNT responds the fold, which is the count. -/
theorem popcntRespondsThePopulationCount : Obligations.PopcntRespondsThePopulationCount := by
  intro s x valid hx
  obtain ⟨width, -⟩ := valid
  refine ⟨?_, popcount_le hx, rfl⟩
  rw [← swarPopcount_eq_popcount width hx]
  rfl

end Sys2Proof.Machine
end

section
/-! The popcount table: the words that the inserts of its entries leave, for PROM and for the buffer of PCTFILL
(42_popcount_table.md R144 to R147, R149 to R153). -/

namespace Sys2Proof.Machine

/-! ### The words of a table -/

/-- The storage words after the first `n` entries of the popcount table of width `w` are inserted over the words `rd`
(42_popcount_table.md R144, R151). -/
def tableWords (wb w : Nat) (rd : Nat → Nat) : Nat → Nat → Nat
  | 0 => rd
  | i + 1 => insertedWords wb w i (swarPopcount wb i) (tableWords wb w rd i)

/-- PROM is filled over words of 0 (42_popcount_table.md R146). -/
theorem word_promFill (wb w n : Nat) : Memory.word (promFill wb w n) = tableWords wb w (fun _ => 0) n := by
  induction n with
  | zero => rfl
  | succ i ih =>
    funext k
    rw [promFill, Memory.word_setWords _ _ (by rw [fieldWrites_addresses]; exact spanWords_nodup _ _ _), ih]
    rfl

/-- The loop of PCTFILL fills the table over the words of the buffer (42_popcount_table.md R151). -/
theorem storageWord_fillTable (s : State) (n : Nat) :
    storageWord (s.fillTable n) = tableWords s.params.wb s.fw (storageWord s) n := by
  induction n with
  | zero => rfl
  | succ i ih =>
    rw [State.fillTable, storageWord_insertField_eq, State.fillTable_params, State.fillTable_fw, ih]
    rfl

/-- An entry of the table fits its field (42_popcount_table.md R143). -/
theorem swarPopcount_lt {wb w i : Nat} (hi : i < 2 ^ w) : swarPopcount wb i < 2 ^ w :=
  Nat.lt_of_le_of_lt (swarPopcount_le wb i) hi

section
variable {wb w : Nat} (width : 2 ^ Nat.log2 wb = wb) (h1 : 1 ≤ w) (h2 : w ≤ wb) {n : Nat} (hn : n ≤ 2 ^ w)
include h1 h2 hn

include width in
/-- Element i of the table is popcount(i), whatever the words held before (42_popcount_table.md R146, R152). -/
theorem layoutValue_tableWords (rd : Nat → Nat) {i : Nat} (hi : i < n) :
    layoutValue wb w i (tableWords wb w rd n) = popcount i := by
  induction n with
  | zero => exact absurd hi (Nat.not_lt_zero i)
  | succ n ih =>
    rw [tableWords]
    by_cases last : i = n
    · subst last
      have operand : i < 2 ^ wb := Nat.lt_of_lt_of_le hn (Nat.pow_le_pow_right (by decide) h2)
      rw [layoutValue_insertedWords h1 h2 (swarPopcount_lt hn), swarPopcount_eq_popcount width operand]
    · rw [layoutValue_insertedWords_of_ne h1 h2 (swarPopcount_lt hn) last, ih (by omega) (by omega)]

/-- Filling the table keeps every bit after its last element (42_popcount_table.md R146, R152). -/
theorem streamBit_tableWords_of_tail (rd : Nat → Nat) {pos : Nat} (tail : w * n ≤ pos) :
    streamBit wb (tableWords wb w rd n) pos = streamBit wb rd pos := by
  induction n with
  | zero => rfl
  | succ n ih =>
    have before : w * n ≤ pos := (Nat.mul_le_mul_left w (Nat.le_succ n)).trans tail
    rw [tableWords, streamBit_insertedWords h1 h2 (swarPopcount_lt hn),
      if_neg (not_inSpan_of_tail (Nat.lt_succ_self n) tail), ih (by omega) before]

end

/-- A stream bit is a bit of the element whose span it lies in (20_memory.md R52). -/
theorem streamBit_eq_testBit_layoutValue {wb fw : Nat} (h1 : 1 ≤ fw) (rd : Nat → Nat) (pos : Nat) :
    streamBit wb rd pos = (layoutValue wb fw (pos / fw) rd).testBit (fw - 1 - pos % fw) := by
  have inSpan := Nat.mod_lt pos (show 0 < fw by omega)
  have position := Nat.div_add_mod' pos fw
  have same : pos / fw * fw + (fw - 1 - (fw - 1 - pos % fw)) = pos := by omega
  rw [testBit_layoutValue, same, decide_eq_true (by omega), Bool.true_and]

/-! ### PROM and RANK -/

theorem promWord_eq_tableWords (p : Params) : promWord p = tableWords p.wb p.pw (fun _ => 0) (2 ^ p.pw) :=
  word_promFill p.wb p.pw (2 ^ p.pw)

/-- Element i of PROM is popcount(i) (42_popcount_table.md R146). -/
theorem layoutValue_promWord {p : Params} (valid : p.Valid) {i : Nat} (hi : i < 2 ^ p.pw) :
    layoutValue p.wb p.pw i (promWord p) = popcount i := by
  obtain ⟨width, -, -, -, -, -, -, h1, h2, -⟩ := valid
  rw [promWord_eq_tableWords, layoutValue_tableWords width h1 h2 (Nat.le_refl _) _ hi]

/-- Settles O37: the elements and the tail of the table that fills PROM. -/
theorem promHoldsThePopcountTable : Obligations.PromHoldsThePopcountTable := by
  intro p valid
  refine ⟨fun i hi => layoutValue_promWord valid hi, fun pos tail _ => ?_⟩
  obtain ⟨-, -, -, -, -, -, -, h1, h2, -⟩ := valid
  rw [promWord_eq_tableWords, streamBit_tableWords_of_tail h1 h2 (Nat.le_refl _) _ tail]
  exact Nat.zero_testBit _

/-- RANK of a pattern in range responds its count (42_popcount_table.md R149, R150). -/
theorem exec_rank {s : State} (valid : s.params.Valid) {x : Nat} (hx : x < 2 ^ s.params.pw) :
    exec (.rank x) s = .next (s.addResponse ⟨.ok, popcount x⟩) := by
  have words := promWord_lt valid
  have element := layoutValue_promWord valid hx
  obtain ⟨-, -, -, -, -, -, -, h1, h2, -⟩ := valid
  rw [← element, ← extractField_eq_layoutValue h1 h2 words]
  exact if_pos (rankStatus_ok_iff.2 hx)

theorem rankStatus_range {p : Params} {x : Nat} (h : 2 ^ p.pw ≤ x) : rankStatus p x = .range := if_pos h

/-- Settles O38, by the status of RANK. -/
theorem rankRespondsThePopcountOfThePattern : Obligations.RankRespondsThePopcountOfThePattern :=
  fun _ _ valid => ⟨exec_rank valid, fun outside => exec_of_status (rankStatus_range outside) (by decide), rfl⟩

/-! ### PCTFILL -/

theorem pctfillStatus_width {p : Params} {w : Nat} (b : Nat) (h : w = 0 ∨ pctWMax p < w) : pctfillStatus p w b = .width :=
  if_pos (by simpa using h)

theorem pctfillStatus_base {p : Params} {w b : Nat} (width : 1 ≤ w ∧ w ≤ pctWMax p)
    (h : 2 ^ p.xaddrBits ≤ b ∨ 2 ^ p.xaddrBits < b + wordCount p.wb w (2 ^ w)) : pctfillStatus p w b = .base := by
  have valid : ¬(decide (w < 1) || decide (pctWMax p < w)) = true := by
    simpa [Nat.one_le_iff_ne_zero] using width
  have outside : baseFits p b (wordCount p.wb w (2 ^ w)) = false := by
    rw [Bool.eq_false_iff, ne_eq, baseFits_iff]
    omega
  rw [pctfillStatus, if_neg valid, outside]
  rfl

/-- The state after a PCTFILL that passes its checks (42_popcount_table.md R151). -/
def State.afterPctfill (s : State) (w b : Nat) : State :=
  ((s.install .borrowed w (2 ^ w) b).fillTable (2 ^ w)).addResponse ⟨.ok, 0⟩

@[simp] theorem State.afterPctfill_params (s : State) (w b : Nat) : (s.afterPctfill w b).params = s.params := by
  simp [State.afterPctfill]
@[simp] theorem State.afterPctfill_cfgValid (s : State) (w b : Nat) : (s.afterPctfill w b).cfgValid = true := by
  simp [State.afterPctfill]
@[simp] theorem State.afterPctfill_mode (s : State) (w b : Nat) : (s.afterPctfill w b).mode = .borrowed := by
  simp [State.afterPctfill]
@[simp] theorem State.afterPctfill_fw (s : State) (w b : Nat) : (s.afterPctfill w b).fw = w := by simp [State.afterPctfill]
@[simp] theorem State.afterPctfill_cap (s : State) (w b : Nat) : (s.afterPctfill w b).cap = 2 ^ w := by
  simp [State.afterPctfill]
@[simp] theorem State.afterPctfill_base (s : State) (w b : Nat) : (s.afterPctfill w b).base = b := by simp [State.afterPctfill]
@[simp] theorem State.afterPctfill_phase (s : State) (w b : Nat) : (s.afterPctfill w b).phase = s.phase := by
  simp [State.afterPctfill]
@[simp] theorem State.afterPctfill_input (s : State) (w b : Nat) : (s.afterPctfill w b).input = s.input := by
  simp [State.afterPctfill]
@[simp] theorem State.afterPctfill_rsps (s : State) (w b : Nat) : (s.afterPctfill w b).rsps = ⟨.ok, 0⟩ :: s.rsps := by
  simp [State.afterPctfill]
@[simp] theorem State.afterPctfill_draws (s : State) (w b : Nat) : (s.afterPctfill w b).draws = s.forgetOwned.draws := by
  simp [State.afterPctfill]
@[simp] theorem State.afterPctfill_oram (s : State) (w b : Nat) : (s.afterPctfill w b).oram = s.forgetOwned.oram :=
  fillTable_oram _ _ rfl

/-- A PCTFILL that passes its checks makes the table live (42_popcount_table.md R151). -/
theorem exec_pctfill {s : State} {w b : Nat} (ok : pctfillStatus s.params w b = .ok) :
    exec (.pctfill w b) s = .next (s.afterPctfill w b) :=
  if_pos ok

theorem State.Inv.afterPctfill {s : State} (h : s.Inv) {w b : Nat} (ok : pctfillStatus s.params w b = .ok) :
    (s.afterPctfill w b).Inv :=
  ((h.installPctfill ok).fillTable rfl (Nat.le_refl _) (Nat.le_refl _)).addStatus _

/-- The loop writes only words of the spans of the elements it fills (42_popcount_table.md R153). -/
theorem xmemWord_fillTable {s : State} (hm : s.mode = .borrowed) {n a : Nat}
    (outside : ∀ i < n, ∀ k ∈ spanWords s.params.wb s.fw i, a ≠ s.base + k) :
    xmemWord (s.fillTable n) a = xmemWord s a := by
  induction n with
  | zero => rfl
  | succ n ih =>
    rw [← ih fun i hi => outside i (hi.trans (Nat.lt_succ_self n)), State.fillTable, State.insertField]
    refine setStorageWords_xmemWord_of_not_mem _ _ (by simpa) a ?_
    simpa [fieldWrites_addresses] using outside n (Nat.lt_succ_self n)

/-- PCTFILL changes no word of XMEM outside the buffer (42_popcount_table.md R151, R152). -/
theorem xmemWord_afterPctfill {s : State} {w b a : Nat} (h1 : 1 ≤ w) (h2 : w ≤ s.params.wb)
    (outside : a < b ∨ b + wordCount s.params.wb w (2 ^ w) ≤ a) : xmemWord (s.afterPctfill w b) a = xmemWord s a := by
  have untouched : xmemWord ((s.install .borrowed w (2 ^ w) b).fillTable (2 ^ w)) a =
      xmemWord (s.install .borrowed w (2 ^ w) b) a := by
    refine xmemWord_fillTable rfl fun i hi k hk => ?_
    have inBuffer : k < wordCount s.params.wb w (2 ^ w) := lt_wordCount_of_mem_spanWords h1 h2 hi (by simpa using hk)
    simp only [State.install_base]
    omega
  exact untouched.trans (congrArg (Memory.word · a) (State.install_xmem s .borrowed w (2 ^ w) b))

/-- Settles O39: the checks in order, and the fields of the structure that a passing PCTFILL makes live. -/
theorem pctfillMakesTheTableLive : Obligations.PctfillMakesTheTableLive := by
  rintro s w b n rfl
  refine ⟨?width, ?base, ?success⟩
  case width => exact fun invalid => exec_of_status (pctfillStatus_width b invalid) (by decide)
  case base => exact fun h1 hw outside => exec_of_status (pctfillStatus_base ⟨h1, hw⟩ outside) (by decide)
  case success =>
    intro h1 hw hb fits
    refine ⟨_, exec_pctfill (pctfillStatus_ok_iff.2 ⟨⟨h1, hw⟩, hb, fits⟩), s.afterPctfill_rsps w b, ?_,
      s.afterPctfill_cfgValid w b, s.afterPctfill_mode w b,
      s.afterPctfill_fw w b, s.afterPctfill_cap w b, s.afterPctfill_base w b, ?frame, ?ends, ?kept⟩
    · simp [State.samePorts]
    case frame => exact fun a outside => xmemWord_afterPctfill h1 (hw.trans (Nat.min_le_left _ _)) outside
    case ends =>
      intro hc hm k
      rw [State.afterPctfill_oram, lookup_forgetOwned_of_owned hc hm]
    case kept =>
      intro notOwned
      have forgets := forgetOwned_of_not_owned notOwned
      exact sameOram_of_eq (by simp [forgets]) (by simp [forgets]) (by simp)

/-! ### The table after PCTFILL (42_popcount_table.md R152) -/

theorem storageWord_borrowed {s : State} (hm : s.mode = .borrowed) : storageWord s = fun k => xmemWord s (s.base + k) := by
  funext k
  unfold storageWord
  rw [hm]

/-- The words of the buffer after a PCTFILL (42_popcount_table.md R151). -/
theorem xmemWord_afterPctfill_buffer (s : State) (w b : Nat) :
    (fun k => xmemWord (s.afterPctfill w b) (b + k)) =
      tableWords s.params.wb w (fun k => xmemWord s (b + k)) (2 ^ w) := by
  have old : storageWord (s.install .borrowed w (2 ^ w) b) = fun k => xmemWord s (b + k) := by
    rw [storageWord_borrowed rfl]
    simp [xmemWord]
  have new : storageWord (s.afterPctfill w b) = fun k => xmemWord (s.afterPctfill w b) (b + k) := by
    rw [storageWord_borrowed (by simp), State.afterPctfill_base]
  rw [← old, ← new, State.afterPctfill, storageWord_addResponse, storageWord_fillTable, State.install_params,
    State.install_fw]

section
variable {s : State} {w b : Nat}

/-- Element i of the buffer after a PCTFILL is popcount(i) (42_popcount_table.md R152). -/
theorem layoutValue_afterPctfill (valid : s.params.Valid) (h1 : 1 ≤ w) (h2 : w ≤ s.params.wb) {i : Nat} (hi : i < 2 ^ w) :
    layoutValue s.params.wb w i (fun k => xmemWord (s.afterPctfill w b) (b + k)) = popcount i := by
  obtain ⟨width, -⟩ := valid
  rw [xmemWord_afterPctfill_buffer, layoutValue_tableWords width h1 h2 (Nat.le_refl _) _ hi]

/-- GET i after a PCTFILL responds popcount(i) (42_popcount_table.md R152). -/
theorem State.Inv.exec_get_afterPctfill (h : s.Inv) (ok : pctfillStatus s.params w b = .ok) {i : Nat} (hi : i < 2 ^ w) :
    exec (.get i) (s.afterPctfill w b) = .next ((s.afterPctfill w b).addResponse ⟨.ok, popcount i⟩) := by
  obtain ⟨⟨h1, h2⟩, -⟩ := pctfillStatus_ok ok
  have element := layoutValue_afterPctfill (b := b) h.params h1 h2 hi
  rw [(h.afterPctfill ok).exec_get (by simp) (by simpa), storageWord_borrowed (by simp), State.afterPctfill_base,
    State.afterPctfill_params, State.afterPctfill_fw, element]

end

/-- Settles O40, by the elements and the tail of the table over the words of the buffer; PROM has the same elements. -/
theorem pctfillBuildsThePopcountTable : Obligations.PctfillBuildsThePopcountTable := by
  rintro s w b n legal rfl h1 hw hb fits
  have h2 : w ≤ s.params.wb := hw.trans (Nat.min_le_left _ _)
  have ok : pctfillStatus s.params w b = .ok := pctfillStatus_ok_iff.2 ⟨⟨h1, hw⟩, hb, fits⟩
  refine ⟨_, exec_pctfill ok, s.afterPctfill_rsps w b, s.afterPctfill_cfgValid w b, s.afterPctfill_mode w b,
    s.afterPctfill_fw w b, s.afterPctfill_cap w b, s.afterPctfill_base w b,
    fun i hi => legal.exec_get_afterPctfill ok hi, ?tail, ?frame, ?agree⟩
  case tail =>
    intro pos tail _
    rw [xmemWord_afterPctfill_buffer, streamBit_tableWords_of_tail h1 h2 (Nat.le_refl _) _ tail]
  case frame => exact fun a outside => xmemWord_afterPctfill h1 h2 outside
  case agree =>
    rintro rfl
    refine ⟨fun pos hpos => ?bits, fun i hi => ⟨_, legal.exec_get_afterPctfill ok hi, ?rank⟩⟩
    case bits =>
      have inTable : pos / s.params.pw < 2 ^ s.params.pw := Nat.div_lt_of_lt_mul hpos
      rw [streamBit_eq_testBit_layoutValue h1, layoutValue_afterPctfill legal.params h1 h2 inTable,
        streamBit_eq_testBit_layoutValue h1 (promWord _), layoutValue_promWord legal.params inTable]
    case rank => exact exec_rank (by simpa using legal.params) (by simpa)

/-! ### The accesses of PCTFILL (42_popcount_table.md R153) -/

/-- An insert in a borrowed buffer reads and then writes each word of its span (41_packed_array.md R104). -/
theorem shape_insertAccesses {s : State} (hm : s.mode = .borrowed) (i v : Nat) :
    (insertAccesses s i v).map XmAccess.shape =
      (spanWords s.params.wb s.fw i).flatMap fun k => [(false, s.base + k), (true, s.base + k)] := by
  rw [insertAccesses_borrowed hm, List.map_flatMap, ← fieldWrites_addresses s.params.wb s.fw i v (storageWord s),
    List.flatMap_map]
  rfl

/-- The loop makes the accesses of its inserts, element by element (42_popcount_table.md R153). -/
theorem shape_fillAccesses {s : State} (hm : s.mode = .borrowed) (n : Nat) :
    (fillAccesses s n).map XmAccess.shape =
      (List.range n).flatMap fun i =>
        (spanWords s.params.wb s.fw i).flatMap fun k => [(false, s.base + k), (true, s.base + k)] := by
  induction n with
  | zero => rfl
  | succ n ih =>
    rw [fillAccesses, List.map_append, ih, shape_insertAccesses (by simpa), List.range_succ, List.flatMap_append]
    simp

/-- Settles O44: the accesses of a PCTFILL that passes its checks are those of its loop. -/
theorem accessesOfPctfill : Obligations.AccessesOfPctfill := by
  intro s w b h1 hw hb fits
  rw [xmAccesses_pctfill (pctfillStatus_ok_iff.2 ⟨⟨h1, hw⟩, hb, fits⟩), shape_fillAccesses rfl]
  simp

end Sys2Proof.Machine
end

section
/-! Every command and every step is total (60_exceptions.md R174), and a command that fails responds its status and nothing else
(R170). -/

namespace Sys2Proof.Machine

/-! ### One step, by the phase and the host's next move (10_state.md R34) -/

/-- An IDLE block with no move waiting stays as it is (30_encoding.md R77). -/
theorem step_no_input {s : State} (hp : s.phase = .idle) (hin : s.input = []) : step s = .next s := by
  unfold step
  rw [hp, hin]

/-- An IDLE block accepts a command word (10_state.md R34). -/
theorem step_accept {s : State} {cw : Nat} {rest : List HostEvent} (hp : s.phase = .idle)
    (hin : s.input = .accept cw :: rest) : step s = .next ((s.withInput rest).acceptCommand cw) := by
  unfold step
  rw [hp, hin]

/-- A reset of an IDLE block (70_reset_and_hazards.md R191). -/
theorem step_reset_of_idle {s : State} {rest : List HostEvent} (hp : s.phase = .idle) (hin : s.input = .reset :: rest) :
    step s = .next (s.withInput rest).resetBlock := by
  unfold step
  rw [hp, hin]

/-- A reset of a BUSY block abandons the command in flight (70_reset_and_hazards.md R193). -/
theorem step_reset_of_busy {s : State} {cw : Nat} {rest : List HostEvent} (hp : s.phase = .busy cw)
    (hin : s.input = .reset :: rest) : step s = .next ((s.withInput rest).abandon (decode s.params cw)) := by
  unfold step
  rw [hp, hin]

/-- The command in flight completes unless a reset comes (70_reset_and_hazards.md R201). -/
theorem step_complete {s : State} {cw : Nat} (hp : s.phase = .busy cw) (noReset : s.input.head? ≠ some .reset) :
    step s = exec (decode s.params cw) s.toIdle := by
  unfold step
  rw [hp]
  cases hin : s.input with
  | nil => rfl
  | cons e rest =>
    cases e with
    | command | accept | write => rfl
    | reset => simp [hin] at noReset

/-- Settles O14, by the phase and the host's next move: a command goes on under the configuration invariant, and a host write is
inside the address space. -/
theorem legalStatesNeverFault : Obligations.LegalStatesNeverFault := by
  intro s hs
  unfold stepsSafely
  cases hp : s.phase with
  | idle =>
    cases hin : s.input with
    | nil => exact ⟨_, step_no_input hp hin⟩
    | cons e rest =>
      obtain ⟨fits, legal⟩ := hs.takeInput hin
      cases e with
      | command cw =>
        rw [step_command hp hin]
        exact legal.configOk.exists_exec_eq_next _
      | accept cw => exact ⟨_, step_accept hp hin⟩
      | write a v =>
        simp only [HostEvent.fits, Bool.and_eq_true, decide_eq_true_eq] at fits
        obtain ⟨inSpace, -⟩ := fits
        exact ⟨_, step_hostWrite hp hin inSpace⟩
      | reset => exact ⟨_, step_reset_of_idle hp hin⟩
  | busy cw =>
    by_cases reset : s.input.head? = some .reset
    · obtain ⟨rest, hin⟩ := List.head?_eq_some_iff.1 reset
      exact ⟨_, step_reset_of_busy hp hin⟩
    · rw [step_complete hp reset]
      exact hs.toIdle.configOk.exists_exec_eq_next _

/-! ### The statuses of each command (60_exceptions.md R170) -/

/-- The statuses that the rows of 60_exceptions.md R170 give a command. -/
def statusesOf : Instr → List Status
  | .cfgo _ _ => [.ok, .width, .space]
  | .cfgb _ _ _ => [.ok, .width, .base]
  | .get _ => [.ok, .noCfg, .range]
  | .write _ _ => [.ok, .noCfg, .range]
  | .release => [.ok]
  | .rank _ => [.ok, .range]
  | .popcnt _ => [.ok]
  | .pctfill _ _ => [.ok, .width, .base]
  | .reserved0 | .reserved9 | .reservedA | .reservedB | .reservedC | .reservedD | .reservedE | .reservedF => [.illegal]

/-- The checks of a command give it one of its statuses. -/
theorem commandStatus_mem_statusesOf (s : State) (i : Instr) : commandStatus s i ∈ statusesOf i := by
  cases i with
  | cfgo | cfgb | get | write | rank | pctfill =>
    simp only [commandStatus, cfgoStatus, cfgbStatus, accessStatus, rankStatus, pctfillStatus]
    split_ifs <;> simp [statusesOf]
  | release | popcnt => exact List.mem_singleton_self _
  | reserved0 | reserved9 | reservedA | reservedB | reservedC | reservedD | reservedE | reservedF =>
    exact List.mem_singleton_self _

section
variable {i : Instr}

theorem illegal_mem_statusesOf :
    .illegal ∈ statusesOf i ↔
      i ∈ [.reserved0, .reserved9, .reservedA, .reservedB, .reservedC, .reservedD, .reservedE, .reservedF] := by
  cases i <;> simp [statusesOf]

theorem noCfg_mem_statusesOf : .noCfg ∈ statusesOf i ↔ (∃ j, i = .get j) ∨ ∃ j v, i = .write j v := by
  cases i <;> simp [statusesOf]

theorem width_mem_statusesOf :
    .width ∈ statusesOf i ↔ (∃ w c, i = .cfgo w c) ∨ (∃ w c b, i = .cfgb w c b) ∨ ∃ w b, i = .pctfill w b := by
  cases i <;> simp [statusesOf]

theorem space_mem_statusesOf : .space ∈ statusesOf i ↔ ∃ w c, i = .cfgo w c := by
  cases i <;> simp [statusesOf]

theorem base_mem_statusesOf : .base ∈ statusesOf i ↔ (∃ w c b, i = .cfgb w c b) ∨ ∃ w b, i = .pctfill w b := by
  cases i <;> simp [statusesOf]

theorem range_mem_statusesOf :
    .range ∈ statusesOf i ↔ (∃ j, i = .get j) ∨ (∃ j v, i = .write j v) ∨ ∃ x, i = .rank x := by
  cases i <;> simp [statusesOf]

end

/-! ### The response of a command (60_exceptions.md R170) -/

/-- The one response carries the status of the checks, and with a status other than OK it is all the command does. -/
theorem CommandEffect.response {s t : State} {i : Instr} (h : CommandEffect s i t) :
    ∃ r, t.rsps = r :: s.rsps ∧ r.status = commandStatus s i ∧ (r.status ≠ .ok → r.data = 0 ∧ t = s.addResponse r) := by
  cases h with
  | fails => exact ⟨_, rfl, rfl, fun _ => ⟨rfl, rfl⟩⟩
  | get _ ok | rank _ ok | write _ _ ok | cfgo _ _ ok | cfgb _ _ _ ok | pctfill _ _ ok =>
    exact ⟨⟨.ok, _⟩, congrArg (_ :: ·) (by simp), ok.symm, fun failed => absurd rfl failed⟩
  | popcnt | release => exact ⟨⟨.ok, _⟩, congrArg (_ :: ·) (by simp), rfl, fun failed => absurd rfl failed⟩

/-- Settles O17, by the response of the command's effect and the statuses its checks can give. -/
theorem aFailingCommandHasNoEffect : Obligations.AFailingCommandHasNoEffect := by
  refine ⟨⟨rfl, rfl, rfl, rfl, rfl, rfl, rfl⟩, fun st => st.code_lt.ne, fun s t i h => ?_⟩
  obtain ⟨r, answered, status, noEffect⟩ := (exec_effect h).response
  have row : r.status ∈ statusesOf i := status ▸ commandStatus_mem_statusesOf s i
  exact ⟨r, answered, noEffect, fun e => illegal_mem_statusesOf.1 (e ▸ row), fun e => noCfg_mem_statusesOf.1 (e ▸ row),
    fun e => width_mem_statusesOf.1 (e ▸ row), fun e => space_mem_statusesOf.1 (e ▸ row),
    fun e => base_mem_statusesOf.1 (e ▸ row), fun e => range_mem_statusesOf.1 (e ▸ row)⟩

end Sys2Proof.Machine
end

section
/-! The host's next command word, an accepted command, and reset (70_reset_and_hazards.md sections 1, 3 and 5). -/

namespace Sys2Proof.Machine

/-! ### Reset (70_reset_and_hazards.md R191 to R193) -/

/-- The host's moves play no part in the writes of a command. -/
theorem xmWrites_withInput (s : State) (rest : List HostEvent) (i : Instr) : xmWrites i (s.withInput rest) = xmWrites i s :=
  congrArg (List.filterMap XmAccess.written) (xmAccesses_withInput s rest i)

/-- A reset during a command draws the words the command would have written, and no others (70_reset_and_hazards.md R193). -/
theorem xmemWord_abandon (s : State) (i : Instr) (a : Nat) :
    xmemWord (s.abandon i) a =
      if a ∈ (xmWrites i s).map Prod.fst then abandonedWord s.draws (xmWrites i s) s.xmem a else xmemWord s a :=
  word_foldl_setEach _ _ s.xmem a

theorem xmemWord_abandon_of_not_written {s : State} {i : Instr} {a : Nat} (h : ∀ v, (a, v) ∉ xmWrites i s) :
    xmemWord (s.abandon i) a = xmemWord s a := by
  have notWritten : a ∉ (xmWrites i s).map Prod.fst := by simpa using h
  rw [xmemWord_abandon, if_neg notWritten]

theorem xmemWord_abandon_old_or_written (s : State) (i : Instr) (a : Nat) :
    xmemWord (s.abandon i) a = xmemWord s a ∨ (a, xmemWord (s.abandon i) a) ∈ xmWrites i s := by
  rw [xmemWord_abandon]
  split_ifs
  · exact abandonedWord_cases s.draws (xmWrites i s) s.xmem a
  · exact .inl rfl

/-- Settles O8: the reset abandons the command, whose writes are those from the state with the reset still to come. -/
theorem resetDuringACommandAbandonsIt : Obligations.ResetDuringACommandAbandonsIt := by
  intro s cw rest hp hin
  have writes := xmWrites_withInput s rest (decode s.params cw)
  refine ⟨_, step_reset_of_busy hp hin, rfl, rfl, rfl, rfl, rfl, rfl, rfl, rfl, rfl, fun _ => rfl,
    fun a => ?_, fun a unwritten => ?_⟩
  · rw [← writes]
    exact xmemWord_abandon_old_or_written (s.withInput rest) _ a
  · rw [← writes] at unwritten
    exact xmemWord_abandon_of_not_written unwritten

/-- Settles O7: the block after the reset is `s.resetBlock` with the move taken up, and it has no live structure. -/
theorem resetSetsEveryRegister : Obligations.ResetSetsEveryRegister := by
  refine ⟨⟨rfl, rfl, rfl, rfl, rfl, rfl⟩, fun s rest hp hin => ?_⟩
  have noStructure : (s.withInput rest).resetBlock.cfgValid = false := rfl
  exact ⟨_, step_reset_of_idle hp hin, noStructure, rfl, rfl, rfl, rfl, rfl, rfl, rfl, rfl, fun _ => rfl,
    sameXmem_of_xmem_eq rfl, fun _ => rfl, fun i => (exec_access_noCfg noStructure i 0).1,
    fun i v => (exec_access_noCfg noStructure i v).2⟩

/-- Settles O12: the parameters have their default values, every register is 0, and the memories and the ports are empty. -/
theorem resetStateIsLegal : Obligations.ResetStateIsLegal where
  params := by decide
  fwWidth := Nat.two_pow_pos _
  capWidth := Nat.two_pow_pos _
  baseWidth := Nat.two_pow_pos _
  widthLegal := nofun
  ownedFits := nofun
  borrowedFits := nofun
  oramListed := rfl
  oramWords := nofun
  xmemForm := Memory.nil_wf _ _ _
  phaseFits := rfl
  inputFits := nofun
  rspsFit := nofun

/-! ### Commands, presented and in flight (70_reset_and_hazards.md R196, R201) -/

theorem State.toIdle_of_idle {s : State} (hp : s.phase = .idle) : s.toIdle = s := by
  rw [State.toIdle, ← hp]

/-- Settles O10: the command in flight completes, and its effect is one response and no host move taken up. -/
theorem busyBlockAnswersInOneStep : Obligations.BusyBlockAnswersInOneStep := by
  intro s cw legal hp noReset
  obtain ⟨t, runs⟩ := legal.toIdle.configOk.exists_exec_eq_next (decode s.params cw)
  have effect := exec_effect runs
  obtain ⟨r, answered⟩ := effect.exists_response
  obtain ⟨-, phase, input⟩ := effect.samePorts
  exact ⟨t, r, (step_complete hp noReset).trans runs, phase, answered, input⟩

/-- Settles O5: the word presented next, the word in flight, and the word `withFetchWord` presents. -/
theorem stepRunsTheDecodedCommand : Obligations.StepRunsTheDecodedCommand :=
  ⟨fun _ _ _ => step_command, fun _ _ => step_complete, fun _ _ _ => step_command rfl rfl⟩

/-- Settles O6: completing the accepted command runs it from the state the atomic step runs it from. -/
theorem acceptThenCompleteIsOneAtomicCommand : Obligations.AcceptThenCompleteIsOneAtomicCommand := by
  intro s cw rest hp hin noReset
  have idle : (s.withInput rest).toIdle = s.withInput rest := State.toIdle_of_idle hp
  refine ⟨_, step_accept hp hin, rfl, rfl, ⟨rfl, rfl, rfl, rfl, rfl⟩, fun _ => rfl, fun _ => rfl, ?_⟩
  calc step ((s.withInput rest).acceptCommand cw)
      = exec (decode s.params cw) (s.withInput rest).toIdle := step_complete rfl noReset
    _ = exec (decode s.params cw) (s.withInput rest) := by rw [idle]
    _ = step (s.withInput (.command cw :: rest)) := (step_command (s := s.withInput (.command cw :: rest)) hp rfl).symm

end Sys2Proof.Machine
end

section
/-! The example words of the spec: the assembler's word of a command, and a reserved word with ignored fields that are not 0
(30_encoding.md sections 6 and 7, 95_test_vectors.md section 2.7). -/

namespace Sys2Proof

/-- The word the assembler writes for a well-formed command decodes to that command. -/
theorem decode_eq_of_encode_eq {p : Params} {cw : Nat} {i : Instr} (wf : i.wellFormed p = true) (assembled : encode p i = cw) :
    decode p cw = i :=
  assembled ▸ (decodeOfEncodeIsIdentity p i wf).2

/-- A word with the op value of a reserved command is that command, with anything in its other fields (30_encoding.md R74, R81). -/
theorem decode_eq_of_reserved {p : Params} {cw : Nat} {i : Instr}
    (hi : i ∈ [.reserved0, .reserved9, .reservedA, .reservedB, .reservedC, .reservedD, .reservedE, .reservedF])
    (hop : opField p cw = i.opValue) : decode p cw = i := by
  unfold decode
  rw [hop]
  simp only [List.mem_cons, List.not_mem_nil, or_false] at hi
  rcases hi with rfl | rfl | rfl | rfl | rfl | rfl | rfl | rfl <;> rfl

/-- Settles O3: each of the first eight words is the assembler's word of its command, and the last three have the op value of a
reserved command. -/
theorem exampleWordsDecode : Obligations.ExampleWordsDecode := by
  refine ⟨?cfgo, ?cfgb, ?get, ?write, ?release, ?rank, ?popcnt, ?pctfill, ?reserved0, ?reservedC, ?reservedF⟩
  case cfgo | cfgb | get | write | release | rank | popcnt | pctfill => exact decode_eq_of_encode_eq (by decide) (by decide)
  case reserved0 | reservedC | reservedF => exact decode_eq_of_reserved (by decide) (by decide)

end Sys2Proof
end
